-- ==== Sys2Proof/Word.lean ====
section
/-! DEFINITION. The word types of the engine and their plainest arithmetic (00_scope.md R5, R6).
Every quantity is unsigned, and no rule of the spec extends a sign (R6). -/

namespace Sys2Proof

/-- A byte: a general register, a memory byte, DT, the immediate `kk` (R6, section 5 of 00_scope.md). -/
abbrev Byte := BitVec 8

/-- A 16-bit word: I, pc, a stack entry, an instruction word. -/
abbrev Word := BitVec 16

/-- `zext_16` of the notation table of 00_scope.md, on a byte. -/
abbrev Byte.toWord (b : Byte) : Word := b.setWidth 16

end Sys2Proof
end

