-- ==== Sys2Proof/Syntax.lean ====
section
/-! DEFINITION. The instructions as syntax: one constructor per row of spec/opcode_table.json, in the table's
order (30_encoding.md R65, R68, R69). A constructor keeps every bit of its word that the row leaves variable,
also a bit the instruction ignores (R67, R88, R90), so that a word and its instruction determine each other
(log 11). -/

namespace Sys2Proof

/-- A register index: the fields X and Y, all sixteen values legal (10_state.md R20, R61). -/
abbrev Reg := Fin 16

/-- The 32 instructions of R65, then the four fallback rows of R68 and R69. -/
inductive Instr where
  | cls
  | ret
  | jp (nnn : BitVec 12)
  | call (nnn : BitVec 12)
  | seVxKk (x : Reg) (kk : Byte)
  | sneVxKk (x : Reg) (kk : Byte)
  | seVxVy (x y : Reg) (n : BitVec 4)
  | ldVxKk (x : Reg) (kk : Byte)
  | addVxKk (x : Reg) (kk : Byte)
  | ldVxVy (x y : Reg)
  | orVxVy (x y : Reg)
  | andVxVy (x y : Reg)
  | xorVxVy (x y : Reg)
  | addVxVy (x y : Reg)
  | subVxVy (x y : Reg)
  | shrVx (x y : Reg)
  | subnVxVy (x y : Reg)
  | shlVx (x y : Reg)
  | sneVxVy (x y : Reg) (n : BitVec 4)
  | ldINnn (nnn : BitVec 12)
  | jpV0Nnn (nnn : BitVec 12)
  | rndVxKk (x : Reg) (kk : Byte)
  | drw (x y : Reg) (n : BitVec 4)
  | skp (x : Reg)
  | sknp (x : Reg)
  | ldVxDt (x : Reg)
  | ldDtVx (x : Reg)
  | addIVx (x : Reg)
  | ldFVx (x : Reg)
  | ldBVx (x : Reg)
  | ldMemVx (x : Reg)
  | ldVxMem (x : Reg)
  | reserved8 (x y : Reg) (n : BitVec 4)
  | reservedE (x : Reg) (kk : Byte)
  | reservedF (x : Reg) (kk : Byte)
  | illegal (nnn : BitVec 12)
  deriving DecidableEq, Repr

end Sys2Proof
end

