-- ==== Sys2Proof/WellFormed.lean ====
section
/-! DEFINITION. Which terms of Instr stand for a word: a fallback row must not hold a word that one of the 32
instruction rows claims (30_encoding.md R65: the instruction rows are tried first; R68, R69). -/

namespace Sys2Proof

/-- The low nibbles of family 8 that name an instruction (R64, R71). -/
def definedSub8 : List (BitVec 4) := [0x0, 0x1, 0x2, 0x3, 0x4, 0x5, 0x6, 0x7, 0xE]

/-- The low bytes of family E that name an instruction (R64, R71). -/
def definedSubE : List Byte := [0x9E, 0xA1]

/-- The low bytes of family F that name an instruction (R64, R71). -/
def definedSubF : List Byte := [0x07, 0x15, 0x1E, 0x29, 0x33, 0x55, 0x65]

/-- The low twelve bits of family 0 that name an instruction (R66). -/
def definedSub0 : List (BitVec 12) := [0x0E0, 0x0EE]

/-- The check. The field types already bound every operand; only the fallback rows have a condition. -/
def Instr.wellFormed : Instr → Bool
  | .reserved8 _ _ n => !definedSub8.contains n
  | .reservedE _ kk => !definedSubE.contains kk
  | .reservedF _ kk => !definedSubF.contains kk
  | .illegal nnn => !definedSub0.contains nnn
  | .cls => true
  | .ret => true
  | .jp _ => true
  | .call _ => true
  | .seVxKk _ _ => true
  | .sneVxKk _ _ => true
  | .seVxVy _ _ _ => true
  | .ldVxKk _ _ => true
  | .addVxKk _ _ => true
  | .ldVxVy _ _ => true
  | .orVxVy _ _ => true
  | .andVxVy _ _ => true
  | .xorVxVy _ _ => true
  | .addVxVy _ _ => true
  | .subVxVy _ _ => true
  | .shrVx _ _ => true
  | .subnVxVy _ _ => true
  | .shlVx _ _ => true
  | .sneVxVy _ _ _ => true
  | .ldINnn _ => true
  | .jpV0Nnn _ => true
  | .rndVxKk _ _ => true
  | .drw _ _ _ => true
  | .skp _ => true
  | .sknp _ => true
  | .ldVxDt _ => true
  | .ldDtVx _ => true
  | .addIVx _ => true
  | .ldFVx _ => true
  | .ldBVx _ => true
  | .ldMemVx _ => true
  | .ldVxMem _ => true

end Sys2Proof
end

