-- ==== Sys2Proof/Decode.lean ====
section
/-! DEFINITION. The decoder, total on any bytes (30_encoding.md R61, R64 to R69, R71), and after it the encoder,
written from the same formats (R62, R65). -/

namespace Sys2Proof

/-! ### The fields of a word (R61) -/

/-- `op[15:12]`, the family. -/
def fieldF (w : Word) : BitVec 4 := w.extractLsb' 12 4

/-- `op[11:8]`, the register index X. -/
def fieldX (w : Word) : Reg := (w.extractLsb' 8 4).toFin

/-- `op[7:4]`, the register index Y. -/
def fieldY (w : Word) : Reg := (w.extractLsb' 4 4).toFin

/-- `op[3:0]`, the nibble operand. -/
def fieldN (w : Word) : BitVec 4 := w.extractLsb' 0 4

/-- `op[7:0]`, the byte operand. -/
def fieldKk (w : Word) : Byte := w.extractLsb' 0 8

/-- `op[11:0]`, the address operand. -/
def fieldNnn (w : Word) : BitVec 12 := w.extractLsb' 0 12

/-! ### The decoder -/

/-- Family 0 is matched on all twelve low bits (R66), and anything else in it is illegal (R69). -/
def decode0 (nnn : BitVec 12) : Instr :=
  if nnn = 0x0E0 then .cls
  else if nnn = 0x0EE then .ret
  else .illegal nnn

/-- Family 8, dispatched on the low nibble (R64), the rest reserved no-operations (R68). -/
def decode8 (x y : Reg) (n : BitVec 4) : Instr :=
  if n = 0x0 then .ldVxVy x y
  else if n = 0x1 then .orVxVy x y
  else if n = 0x2 then .andVxVy x y
  else if n = 0x3 then .xorVxVy x y
  else if n = 0x4 then .addVxVy x y
  else if n = 0x5 then .subVxVy x y
  else if n = 0x6 then .shrVx x y
  else if n = 0x7 then .subnVxVy x y
  else if n = 0xE then .shlVx x y
  else .reserved8 x y n

/-- Family E, dispatched on the low byte (R64), the rest reserved no-operations (R68). -/
def decodeE (x : Reg) (kk : Byte) : Instr :=
  if kk = 0x9E then .skp x
  else if kk = 0xA1 then .sknp x
  else .reservedE x kk

/-- Family F, dispatched on the low byte (R64), the rest reserved no-operations (R68). -/
def decodeF (x : Reg) (kk : Byte) : Instr :=
  if kk = 0x07 then .ldVxDt x
  else if kk = 0x15 then .ldDtVx x
  else if kk = 0x1E then .addIVx x
  else if kk = 0x29 then .ldFVx x
  else if kk = 0x33 then .ldBVx x
  else if kk = 0x55 then .ldMemVx x
  else if kk = 0x65 then .ldVxMem x
  else .reservedF x kk

/-- `Decode(op)` of R64: every one of the 65536 words has an instruction, and only the word is read. Families 5
and 9 do not examine the low nibble (R67). -/
def decodeWord (w : Word) : Instr :=
  if fieldF w = 0x0 then decode0 (fieldNnn w)
  else if fieldF w = 0x1 then .jp (fieldNnn w)
  else if fieldF w = 0x2 then .call (fieldNnn w)
  else if fieldF w = 0x3 then .seVxKk (fieldX w) (fieldKk w)
  else if fieldF w = 0x4 then .sneVxKk (fieldX w) (fieldKk w)
  else if fieldF w = 0x5 then .seVxVy (fieldX w) (fieldY w) (fieldN w)
  else if fieldF w = 0x6 then .ldVxKk (fieldX w) (fieldKk w)
  else if fieldF w = 0x7 then .addVxKk (fieldX w) (fieldKk w)
  else if fieldF w = 0x8 then decode8 (fieldX w) (fieldY w) (fieldN w)
  else if fieldF w = 0x9 then .sneVxVy (fieldX w) (fieldY w) (fieldN w)
  else if fieldF w = 0xA then .ldINnn (fieldNnn w)
  else if fieldF w = 0xB then .jpV0Nnn (fieldNnn w)
  else if fieldF w = 0xC then .rndVxKk (fieldX w) (fieldKk w)
  else if fieldF w = 0xD then .drw (fieldX w) (fieldY w) (fieldN w)
  else if fieldF w = 0xE then decodeE (fieldX w) (fieldKk w)
  else decodeF (fieldX w) (fieldKk w)

/-- Why bytes are not an instruction. -/
inductive DecodeReject where
  /-- Fewer than the two bytes every instruction has (R60). -/
  | truncated
  deriving DecidableEq, Repr

/-- A word from its two bytes, the byte at the lower address being `op[15:8]` (R46). -/
def wordOfBytes (hi lo : Byte) : Word := hi ++ lo

/-- The decoder on bytes: the first instruction and the bytes after it. Every instruction is two bytes (R60). -/
def decode : List Byte → Except DecodeReject (Instr × List Byte)
  | hi :: lo :: rest => .ok (decodeWord (wordOfBytes hi lo), rest)
  | [_] => .error .truncated
  | [] => .error .truncated

/-- The two bytes of the table's word, in memory order, with the bits above `nbits` zero. -/
def bytesOfTableWord (nbits w : Nat) : Byte × Byte :=
  (BitVec.ofNat 8 (w % 2 ^ nbits / 256), BitVec.ofNat 8 (w % 2 ^ nbits % 256))

/-- The instruction the decoder reads from a word of spec/opcode_table.json. The table's rows have 16 bits and
one word, so a longer row is none of this machine's. -/
def decodeTableWord (nbits w : Nat) : Option Instr :=
  if nbits ≤ 16 then
    match decode [(bytesOfTableWord nbits w).1, (bytesOfTableWord nbits w).2] with
    | .ok (i, _) => some i
    | .error _ => none
  else none

/-! ### The encoder (R62, R65) -/

/-- The four bits of a register index. -/
def regBits (r : Reg) : BitVec 4 := BitVec.ofNat 4 r.val

/-- Format A, and format Z as its members: family and twelve bits. -/
def wordA (f : BitVec 4) (nnn : BitVec 12) : Word := f ++ nnn

/-- Formats RI and R: family, register, byte. -/
def wordRI (f : BitVec 4) (x : Reg) (kk : Byte) : Word := f ++ (regBits x ++ kk)

/-- Formats RR and RRN: family, two registers, nibble. -/
def wordRR (f : BitVec 4) (x y : Reg) (n : BitVec 4) : Word := f ++ (regBits x ++ (regBits y ++ n))

/-- The word of an instruction (R65; R68 and R69 for the fallback rows). -/
def encode : Instr → Word
  | .cls => wordA 0x0 0x0E0
  | .ret => wordA 0x0 0x0EE
  | .jp nnn => wordA 0x1 nnn
  | .call nnn => wordA 0x2 nnn
  | .seVxKk x kk => wordRI 0x3 x kk
  | .sneVxKk x kk => wordRI 0x4 x kk
  | .seVxVy x y n => wordRR 0x5 x y n
  | .ldVxKk x kk => wordRI 0x6 x kk
  | .addVxKk x kk => wordRI 0x7 x kk
  | .ldVxVy x y => wordRR 0x8 x y 0x0
  | .orVxVy x y => wordRR 0x8 x y 0x1
  | .andVxVy x y => wordRR 0x8 x y 0x2
  | .xorVxVy x y => wordRR 0x8 x y 0x3
  | .addVxVy x y => wordRR 0x8 x y 0x4
  | .subVxVy x y => wordRR 0x8 x y 0x5
  | .shrVx x y => wordRR 0x8 x y 0x6
  | .subnVxVy x y => wordRR 0x8 x y 0x7
  | .shlVx x y => wordRR 0x8 x y 0xE
  | .sneVxVy x y n => wordRR 0x9 x y n
  | .ldINnn nnn => wordA 0xA nnn
  | .jpV0Nnn nnn => wordA 0xB nnn
  | .rndVxKk x kk => wordRI 0xC x kk
  | .drw x y n => wordRR 0xD x y n
  | .skp x => wordRI 0xE x 0x9E
  | .sknp x => wordRI 0xE x 0xA1
  | .ldVxDt x => wordRI 0xF x 0x07
  | .ldDtVx x => wordRI 0xF x 0x15
  | .addIVx x => wordRI 0xF x 0x1E
  | .ldFVx x => wordRI 0xF x 0x29
  | .ldBVx x => wordRI 0xF x 0x33
  | .ldMemVx x => wordRI 0xF x 0x55
  | .ldVxMem x => wordRI 0xF x 0x65
  | .reserved8 x y n => wordRR 0x8 x y n
  | .reservedE x kk => wordRI 0xE x kk
  | .reservedF x kk => wordRI 0xF x kk
  | .illegal nnn => wordA 0x0 nnn

/-! ### The opcode map as patterns (R65) -/

/-- A row of the opcode map: a word is of the row when `w AND mask = bits` (R65). -/
structure Pattern where
  mask : Word
  bits : Word
  deriving DecidableEq, Repr

/-- The row's test. -/
def Pattern.holds (p : Pattern) (w : Word) : Bool := w &&& p.mask == p.bits

/-- The 32 instruction rows of R65, in the table's order. -/
def definedPatterns : List Pattern :=
  [⟨0xFFFF, 0x00E0⟩, ⟨0xFFFF, 0x00EE⟩, ⟨0xF000, 0x1000⟩, ⟨0xF000, 0x2000⟩,
   ⟨0xF000, 0x3000⟩, ⟨0xF000, 0x4000⟩, ⟨0xF000, 0x5000⟩, ⟨0xF000, 0x6000⟩,
   ⟨0xF000, 0x7000⟩, ⟨0xF00F, 0x8000⟩, ⟨0xF00F, 0x8001⟩, ⟨0xF00F, 0x8002⟩] ++
  [⟨0xF00F, 0x8003⟩, ⟨0xF00F, 0x8004⟩, ⟨0xF00F, 0x8005⟩, ⟨0xF00F, 0x8006⟩,
   ⟨0xF00F, 0x8007⟩, ⟨0xF00F, 0x800E⟩, ⟨0xF000, 0x9000⟩, ⟨0xF000, 0xA000⟩,
   ⟨0xF000, 0xB000⟩, ⟨0xF000, 0xC000⟩, ⟨0xF000, 0xD000⟩, ⟨0xF0FF, 0xE09E⟩] ++
  [⟨0xF0FF, 0xE0A1⟩, ⟨0xF0FF, 0xF007⟩, ⟨0xF0FF, 0xF015⟩, ⟨0xF0FF, 0xF01E⟩,
   ⟨0xF0FF, 0xF029⟩, ⟨0xF0FF, 0xF033⟩, ⟨0xF0FF, 0xF055⟩, ⟨0xF0FF, 0xF065⟩]

/-- The position of an instruction's row in `definedPatterns`; none for the fallback rows (R65). -/
def Instr.definedRow : Instr → Option Nat
  | .cls => some 0
  | .ret => some 1
  | .jp _ => some 2
  | .call _ => some 3
  | .seVxKk _ _ => some 4
  | .sneVxKk _ _ => some 5
  | .seVxVy _ _ _ => some 6
  | .ldVxKk _ _ => some 7
  | .addVxKk _ _ => some 8
  | .ldVxVy _ _ => some 9
  | .orVxVy _ _ => some 10
  | .andVxVy _ _ => some 11
  | .xorVxVy _ _ => some 12
  | .addVxVy _ _ => some 13
  | .subVxVy _ _ => some 14
  | .shrVx _ _ => some 15
  | .subnVxVy _ _ => some 16
  | .shlVx _ _ => some 17
  | .sneVxVy _ _ _ => some 18
  | .ldINnn _ => some 19
  | .jpV0Nnn _ => some 20
  | .rndVxKk _ _ => some 21
  | .drw _ _ _ => some 22
  | .skp _ => some 23
  | .sknp _ => some 24
  | .ldVxDt _ => some 25
  | .ldDtVx _ => some 26
  | .addIVx _ => some 27
  | .ldFVx _ => some 28
  | .ldBVx _ => some 29
  | .ldMemVx _ => some 30
  | .ldVxMem _ => some 31
  | .reserved8 _ _ _ => none
  | .reservedE _ _ => none
  | .reservedF _ _ => none
  | .illegal _ => none

end Sys2Proof
end

