-- ==== Sys2Proof/Config.lean ====
section
/-! DEFINITION. What is fixed for the machine (00_scope.md R4), and the free values: the inputs of a machine
cycle that the host has not written down (60_exceptions.md R161, R162, R164). The bytes of FONT are a
parameter held in State (log 4). -/

namespace Sys2Proof.Config

/-- MEM_SIZE of R4: addresses 0x000 to 0xFFF. -/
@[simp] abbrev memSize : Nat := 0x1000

/-- PROG_BASE of R4: where LOAD puts the image, and pc after reset. -/
@[simp] abbrev progBase : Nat := 0x200

/-- PROG_MAX of R4: the largest program image, in bytes. -/
@[simp] abbrev progMax : Nat := 3584

/-- FONT_GLYPHS times GLYPH_BYTES of R4: the size of the font region, which starts at address 0 (R42). -/
@[simp] abbrev fontSize : Nat := 80

/-- STACK_DEPTH of R4. -/
@[simp] abbrev stackDepth : Nat := 16

/-- FB_W of R4. -/
@[simp] abbrev fbWidth : Nat := 64

/-- FB_H of R4. -/
@[simp] abbrev fbHeight : Nat := 32

/-- FREE VALUE (log 3): the `tick` input of the machine cycle with this number, "under no law" (R161). -/
opaque freeTick : Nat → Bool

/-- FREE VALUE (log 3): the `rnd` input of the machine cycle with this number, "any byte, independent of
everything else" (R164). -/
opaque freeRnd : Nat → Byte

/-- FREE VALUE (log 3): the `keys` input of the machine cycle with this number, any finite list of pairs of a
key 0 to 15 and a latch value (R162). -/
opaque freeKeys : Nat → List (Fin 16 × Bool)

end Sys2Proof.Config
end

