-- ==== Sys2Proof/Machine/Font.lean ====
section
/-! DEFINITION. The default value of the parameter FONT (20_memory.md R42). -/

namespace Sys2Proof.Machine

/-- PRESUMED (log 4): the default table of R42, "from general knowledge, not in source", glyphs 0 to F of five
bytes each. Only State.reset uses it; a machine's own FONT is the field `State.font`. -/
def defaultFont : Vector Byte Config.fontSize :=
  ((#v[0xF0, 0x90, 0x90, 0x90, 0xF0,
       0x20, 0x60, 0x20, 0x20, 0x70,
       0xF0, 0x10, 0xF0, 0x80, 0xF0,
       0xF0, 0x10, 0xF0, 0x10, 0xF0] : Vector Byte 20) ++
   (#v[0x90, 0x90, 0xF0, 0x10, 0x10,
       0xF0, 0x80, 0xF0, 0x10, 0xF0,
       0xF0, 0x80, 0xF0, 0x90, 0xF0,
       0xF0, 0x10, 0x20, 0x40, 0x40] : Vector Byte 20)) ++
  ((#v[0xF0, 0x90, 0xF0, 0x90, 0xF0,
       0xF0, 0x90, 0xF0, 0x10, 0xF0,
       0xF0, 0x90, 0xF0, 0x90, 0x90,
       0xE0, 0x90, 0xE0, 0x90, 0xE0] : Vector Byte 20) ++
   (#v[0xF0, 0x80, 0x80, 0x80, 0xF0,
       0xE0, 0x90, 0x90, 0x90, 0xE0,
       0xF0, 0x80, 0xF0, 0x80, 0xF0,
       0xF0, 0x80, 0xF0, 0x80, 0x80] : Vector Byte 20))

end Sys2Proof.Machine
end

