-- ==== Sys2Proof/Machine/State.lean ====
section
/-! DEFINITION. The state of the engine (10_state.md section 1), the host's events (60_exceptions.md R159 to R166,
70_reset_and_hazards.md R190 to R196), the reasons a step can stop, and the state after reset (R32). -/

namespace Sys2Proof.Machine

/-- The cause field of FAULT: the nine codes of R150, 0 to 8 in this order. -/
inductive Cause where
  /-- 0: the engine is running. -/
  | none
  /-- 1: raised by a family-0 word that is neither 00E0 nor 00EE. -/
  | decodeError
  /-- 2: raised by 2nnn with sixteen live entries. -/
  | stackOverflow
  /-- 3: raised by 00EE with no live entry. -/
  | stackUnderflow
  /-- 4: raised by the fetch when pc0 + 1 > 0xFFF. -/
  | fetchOutOfBounds
  /-- 5: raised by Dxyn and Fx65. -/
  | dataReadOutOfBounds
  /-- 6: raised by Fx33 and Fx55. -/
  | dataWriteOutOfBounds
  /-- 7: raised by Ex9E and ExA1 when V[x] > 15. -/
  | keyIndexOutOfRange
  /-- 8: raised by LOAD of more than 3584 bytes. -/
  | romTooLarge
  deriving DecidableEq, Repr

/-- FAULT, the sticky fault latch (R30, R152). -/
structure FaultLatch where
  cause : Cause
  pc : Word
  op : Word
  info : Word
  deriving DecidableEq, Repr

/-- FAULT after reset: "cause 0, pc 0, op 0, info 0" (R32). -/
def FaultLatch.clear : FaultLatch := ⟨.none, 0, 0, 0⟩

/-- The host's inputs to one machine cycle (R159): the tick bit (R161), the random byte (R164) and the key
events, in order (R162). A key index outside 0 to 15 cannot be expressed (R162). -/
structure CycleInput where
  tick : Bool
  rnd : Byte
  keys : List (Fin 16 × Bool)
  deriving DecidableEq, Repr

/-- What the host does next, between two instruction cycles. -/
inductive HostEvent where
  /-- RESET (R190, R196). -/
  | reset
  /-- LOAD of a program image (R192). -/
  | load (image : List Byte)
  /-- Issue one machine cycle with these inputs (R159). -/
  | cycle (input : CycleInput)
  /-- Stop issuing machine cycles (R166). -/
  | quit
  deriving DecidableEq, Repr

/-- Whether LOAD may still happen: "exactly once, after RESET and before the first machine cycle" (R192). -/
inductive BootPhase where
  | awaitingLoad
  | started
  deriving DecidableEq, Repr

/-- The framebuffer: 32 rows of 64 one-bit cells, cell (x, y) being bit x of row y. R28 leaves the layout to the
model (log 9). -/
abbrev Frame := Vector (BitVec Config.fbWidth) Config.fbHeight

/-- MEM as the cells that differ from their reset contents, addresses strictly rising (log 5). -/
abbrev Memory := List Host.Cell

/-- The engine's state (10_state.md section 1). The last five fields are the model's own (INVENTORY.md). -/
structure State where
  /-- V0 to VF (R20, R21). -/
  v : Vector Byte 16
  /-- The index register I (R22). -/
  i : Word
  /-- The program counter; between instructions, the address of the next word to fetch (R23). -/
  pc : Word
  /-- STK, the sixteen stack entries (R25). -/
  stk : Vector Word 16
  /-- SP, the number of live entries, 0 to 16 (R25). -/
  sp : Fin 17
  /-- DT, the delay timer (R26). -/
  dt : Byte
  /-- K, the key latches, true = held (R27). -/
  k : Vector Bool 16
  /-- FB, the framebuffer (R28). -/
  fb : Frame
  /-- MEM (R29, R40). -/
  mem : Memory
  /-- FAULT (R30). -/
  fault : FaultLatch
  /-- Whether LOAD may still happen (R192, log 6). -/
  boot : BootPhase
  /-- The parameter FONT (R42, log 4); nothing writes it. -/
  font : Vector Byte Config.fontSize
  /-- The host's events still to come, next one first (log 2). -/
  host : List HostEvent
  /-- How many machine cycles have been issued; the free inputs are applied to it (log 3). -/
  cycle : Nat
  /-- The snapshots FLUSH has handed to the host, newest first (R165, log 8). -/
  flushed : List Frame
  deriving DecidableEq, Repr

/-- Reasons a step ends in `Outcome.fault`. Every fatal condition of the spec is a latched FAULT with a state
after it (R30, R151), so it is a NEXT state, never one of these (log 1). -/
inductive Fault where
  /-- Raised by the fetch if the decoder rejects the two fetched bytes. The decoder is total on two bytes (R64),
  so no state raises it: it is the catch-all arm of 93_implementation_defined.md U8. Safe. -/
  | undecodable
  deriving DecidableEq, Repr

/-- Reasons the model gives no meaning. -/
inductive Refusal where
  /-- Raised by an arm of exec that has no meaning yet; no arm is one. Safe. -/
  | notModelled (mnemonic : String)
  /-- Raised by a LOAD event after the first machine cycle or a second time: "this spec does not define LOAD at
  any other time (a model refuses it)" (R192). Safe. -/
  | loadOutsideBoot
  /-- Raised by the host's `get(x, y)` outside 64 by 32: "a host reading FB outside 64 x 32 has no meaning in
  the model" (93_implementation_defined.md U10, R130). Safe. -/
  | pixelOutsideGrid
  deriving DecidableEq, Repr

/-- What a meaning answers. -/
abbrev Result := Host.Outcome State Fault Refusal

/-- The machine right after RESET (R32, R191), for a FONT and for the host's side of the interface: its queue,
the number of cycles issued and the snapshots it was given. -/
def State.afterReset (font : Vector Byte Config.fontSize) (host : List HostEvent) (cycle : Nat)
    (flushed : List Frame) : State where
  v := Vector.replicate 16 0
  i := 0
  pc := 0x200
  stk := Vector.replicate 16 0
  sp := 0
  dt := 0
  k := Vector.replicate 16 false
  fb := Vector.replicate Config.fbHeight 0
  mem := []
  fault := FaultLatch.clear
  boot := .awaitingLoad
  font := font
  host := host
  cycle := cycle
  flushed := flushed

/-- The machine right after reset (R32), with the default FONT (PRESUMED, log 4) and nothing yet from or to the
host (DESIGN CHOICE, logs 2, 3, 8). -/
def State.reset : State := State.afterReset defaultFont [] 0 []

end Sys2Proof.Machine
end

