-- ==== Sys2Proof/Machine/Ops.lean ====
section
/-! DEFINITION. The named operations over the state: memory (20_memory.md), registers, stack, framebuffer, and
taking a fault (60_exceptions.md R151), from which every meaning is built. -/

namespace Sys2Proof.Machine

/-! ### Memory -/

/-- What a cell that is not listed reads as: the reset contents of R32, FONT below 0x050 (R42), else zero. -/
def unlisted (font : Vector Byte Config.fontSize) (a : Nat) : Byte :=
  if h : a < Config.fontSize then font[a] else 0

/-- The byte at an address. -/
def Memory.read (font : Vector Byte Config.fontSize) : Memory → Nat → Byte
  | [], a => unlisted font a
  | c :: m, a => if c.1 = a then c.2 else Memory.read font m a

/-- A cell put into its place in rising order of addresses. -/
def Memory.insert (a : Nat) (b : Byte) : Memory → Memory
  | [] => [(a, b)]
  | c :: m => if a < c.1 then (a, b) :: c :: m else if a = c.1 then (a, b) :: m else c :: Memory.insert a b m

/-- A cell taken out, so that its address reads as the reset contents. -/
def Memory.erase (a : Nat) (m : Memory) : Memory := m.filter fun c => c.1 != a

/-- One byte stored, in canonical form: the reset value of a cell is not listed. -/
def Memory.write (font : Vector Byte Config.fontSize) (m : Memory) (a : Nat) (b : Byte) : Memory :=
  if b = unlisted font a then Memory.erase a m else Memory.insert a b m

/-- Bytes stored one after another at rising addresses (R44). -/
def Memory.writeBytes (font : Vector Byte Config.fontSize) (m : Memory) (a : Nat) : List Byte → Memory
  | [] => m
  | b :: bs => Memory.writeBytes font (Memory.write font m a b) (a + 1) bs

/-- Addresses strictly rise from `lo` on. -/
def Memory.rising (lo : Nat) : Memory → Bool
  | [] => true
  | c :: m => decide (lo ≤ c.1) && Memory.rising (c.1 + 1) m

/-- The canonical form: addresses strictly rising, all inside the address space (R40), and no cell listed with
its reset value. -/
def Memory.wf (font : Vector Byte Config.fontSize) (m : Memory) : Bool :=
  Memory.rising 0 m && m.all fun c => decide (c.1 < Config.memSize) && c.2 != unlisted font c.1

/-- MEM[a] (R43). A caller tests the bound first. -/
def State.readByte (s : State) (a : Nat) : Byte := Memory.read s.font s.mem a

/-- `MemRead(a, n)` within bounds: the bytes at a, a + 1, ..., in that order (R43). -/
def State.readBytes (s : State) (a n : Nat) : List Byte := (List.range n).map fun j => s.readByte (a + j)

/-- `MemWrite(a, n, v)` within bounds (R44). -/
def State.writeBytes (s : State) (a : Nat) (bs : List Byte) : State :=
  { s with mem := Memory.writeBytes s.font s.mem a bs }

/-- Whether n bytes at a lie inside MEM; a is an unbounded number, never wrapped (R45), and no byte at all is
always inside (R43). -/
def inBounds (a n : Nat) : Bool := n == 0 || decide (a + n ≤ Config.memSize)

/-! ### Registers -/

/-- `V[x]` (R20). -/
def State.reg (s : State) (x : Reg) : Byte := s.v[x.val]

/-- `V[x] <- b`; VF is written like any other register (R20, R21). -/
def State.setReg (s : State) (x : Reg) (b : Byte) : State := { s with v := s.v.set x.val b }

/-- `I <- w` (R22). -/
def State.setI (s : State) (w : Word) : State := { s with i := w }

/-- `DT <- b` (R26). -/
def State.setDt (s : State) (b : Byte) : State := { s with dt := b }

/-- The whole framebuffer replaced (R28). -/
def State.setFb (s : State) (fb : Frame) : State := { s with fb := fb }

/-- `pc <- w` (R23). -/
def State.jump (s : State) (w : Word) : State := { s with pc := w }

/-- `pc <- pc0 + 2`: every instruction but those that name a target (R23). The state still has pc = pc0. -/
def State.advance (s : State) : State := s.jump (s.pc + 2)

/-- `pc <- pc0 + 4` if the condition holds, else `pc0 + 2` (R23, R60). -/
def State.skipIf (s : State) (c : Bool) : State := s.jump (if c then s.pc + 4 else s.pc + 2)

/-- The registers V0 to Vx, in rising order (R119, R120). -/
def regsUpTo (x : Reg) : List Reg :=
  ([0, 1, 2, 3, 4, 5, 6, 7, 8, 9, 10, 11, 12, 13, 14, 15] : List Reg).take (x.val + 1)

/-- `V[r] <- MEM[a + r]` for the listed registers in turn (R120). -/
def State.loadRegs (s : State) (a : Nat) (rs : List Reg) : State :=
  rs.foldl (fun t r => t.setReg r (s.readByte (a + r.val))) s

/-! ### The stack (R25) -/

/-- Write, then increment; none when all sixteen entries are live. -/
def State.push (s : State) (w : Word) : Option State :=
  if h : s.sp.val < Config.stackDepth then
    some { s with stk := s.stk.set s.sp.val w h, sp := ⟨s.sp.val + 1, Nat.succ_lt_succ h⟩ }
  else none

/-- Decrement, then read; none when no entry is live. The entry keeps its value (R25, R102). -/
def State.pop (s : State) : Option (Word × State) :=
  if h : 0 < s.sp.val then
    some (s.stk[s.sp.val - 1]'(by have := s.sp.isLt; omega),
      { s with sp := ⟨s.sp.val - 1, by have := s.sp.isLt; omega⟩ })
  else none

/-! ### The framebuffer (43_display.md) -/

/-- FB[x, y] (R28, R130): a coordinate outside the grid cannot be expressed. -/
def Frame.pixel (fb : Frame) (x : Fin Config.fbWidth) (y : Fin Config.fbHeight) : Bool := fb[y.val].getLsbD x.val

/-- `FB[x, y] <- FB[x, y] XOR bit` (R131). -/
def Frame.xorPixel (fb : Frame) (x : Fin Config.fbWidth) (y : Fin Config.fbHeight) (bit : Bool) : Frame :=
  fb.set y.val (fb[y.val] ^^^ (if bit then BitVec.twoPow Config.fbWidth x.val else 0))

/-- The column a sprite's column `col` falls on (R131). -/
def wrapX (px col : Nat) : Fin Config.fbWidth := ⟨(px + col) % Config.fbWidth, Nat.mod_lt _ (by decide)⟩

/-- The row a sprite's row `j` falls on; the modulus is 32 (R131, 90_conflicts.md C4). -/
def wrapY (py j : Nat) : Fin Config.fbHeight := ⟨(py + j) % Config.fbHeight, Nat.mod_lt _ (by decide)⟩

/-- The body of Blit's inner loop (R131), for column `col` of sprite row `j`: the pixel is the old one XOR the
sprite bit, and on to off is a collision. Column 0 is bit 7; both coordinates wrap on their own. -/
def blitColumn (px py j : Nat) (row : Byte) (acc : Frame × Bool) (col : Nat) : Frame × Bool :=
  (acc.1.xorPixel (wrapX px col) (wrapY py j) (row.getLsbD (7 - col)),
   acc.2 || (acc.1.pixel (wrapX px col) (wrapY py j) && row.getLsbD (7 - col)))

/-- The framebuffer with every pixel off (R132). -/
def Frame.blank : Frame := Vector.replicate Config.fbHeight 0

/-- Blit's inner loop: the eight columns of one row (R131). -/
def blitRow (px py j : Nat) (row : Byte) (acc : Frame × Bool) : Frame × Bool :=
  (List.range 8).foldl (blitColumn px py j row) acc

/-- Blit's outer loop, from row `j` on (R131). -/
def blitRows (px py : Nat) : Nat → List Byte → Frame × Bool → Frame × Bool
  | _, [], acc => acc
  | j, row :: rows, acc => blitRows px py (j + 1) rows (blitRow px py j row acc)

/-- `Blit(px, py, rows)` (R131): the new framebuffer and the collision bit. -/
def blit (fb : Frame) (px py : Nat) (rows : List Byte) : Frame × Bool := blitRows px py 0 rows (fb, false)

/-- The host's `get(x, y)` (R130): refused outside the grid (log 10). -/
def State.getPixel (s : State) (x y : Nat) : Except Refusal Bool :=
  if h : x < Config.fbWidth ∧ y < Config.fbHeight then .ok (s.fb.pixel ⟨x, h.1⟩ ⟨y, h.2⟩)
  else .error .pixelOutsideGrid

/-! ### The host's inputs -/

/-- The inputs of the coming machine cycle: those of the event at the head of the host's queue, or free values
where the queue holds none (R159; logs 2, 3). -/
def State.input (s : State) : CycleInput :=
  match s.host with
  | .cycle inp :: _ => inp
  | _ => ⟨Config.freeTick s.cycle, Config.freeRnd s.cycle, Config.freeKeys s.cycle⟩

/-! ### Taking a fault -/

/-- The code of a cause (R150). -/
def Cause.code : Cause → BitVec 4
  | .none => 0
  | .decodeError => 1
  | .stackOverflow => 2
  | .stackUnderflow => 3
  | .fetchOutOfBounds => 4
  | .dataReadOutOfBounds => 5
  | .dataWriteOutOfBounds => 6
  | .keyIndexOutOfRange => 7
  | .romTooLarge => 8

/-- The engine is halted: FAULT.cause is not 0 (R156). There is no way back but RESET (R155). -/
def State.halted (s : State) : Bool := s.fault.cause != .none

/-- `raise C(info)` (R151, R152): nothing changes but FAULT, which records the cause, pc0 (where pc still
stands), the instruction word and the cause's detail. -/
def raise (c : Cause) (info op : Word) (s : State) : Result :=
  .next { s with fault := ⟨c, s.pc, op, info⟩ }

/-- `max(a, 0x1000)`: "the lowest address above 0xFFF that the access needed" (R43, R152). -/
def lowestBeyond (a : Word) : Word := BitVec.ofNat 16 (max a.toNat 0x1000)

/-- An instruction that moves n bytes at I and would leave the state t: the whole range is tested before
anything changes (R48, R50), and out of bounds the cause is raised with nothing done. -/
def ifInBounds (c : Cause) (n : Nat) (op : Word) (s t : State) : Result :=
  if inBounds s.i.toNat n then .next t else raise c (lowestBeyond s.i) op s

end Sys2Proof.Machine
end

