-- ==== Sys2Proof/Machine/Flags.lean ====
section
/-! DEFINITION. Every flag computation: what the seven flag-producing instructions write to VF (10_state.md R21,
40_arithmetic.md R92, R93). -/

namespace Sys2Proof.Machine

/-- VF, the flag register (R21). -/
abbrev flagReg : Reg := 15

/-- A flag as the byte VF holds: 1 or 0 (R21). -/
def flagByte (c : Bool) : Byte := if c then 1 else 0

/-- `V[0xF] <- flag` (R21). -/
def State.setFlag (s : State) (c : Bool) : State := s.setReg flagReg (flagByte c)

/-- 8xy4: the nine-bit sum is 256 or more (R86, R92). -/
def carry (a b : Byte) : Bool := decide (256 ≤ a.toNat + b.toNat)

/-- 8xy5 and 8xy7: a - b needs no borrow (R87, R89, R92). -/
def noBorrow (a b : Byte) : Bool := decide (b.toNat ≤ a.toNat)

/-- 8xy6: bit 0 before the shift (R88). -/
def lowBit (a : Byte) : Bool := a.getLsbD 0

/-- 8xyE: bit 7 before the shift, the mask 0x80 of R90. -/
def highBit (a : Byte) : Bool := a.getLsbD 7

/-- Fx1E: the new I exceeds 0xFFF (R116). -/
def beyondMemory (w : Word) : Bool := decide (0xFFF < w.toNat)

/-- Result first, then the flag: 8xy4, 8xy5, 8xy7 (R93). With x = 0xF the result is lost. -/
def State.resultThenFlag (s : State) (x : Reg) (result : Byte) (flag : Bool) : State :=
  (s.setReg x result).setFlag flag

/-- The flag first, then a shift of what V[x] holds after that write: 8xy6, 8xyE (R93). With x = 0xF the flag
is what is shifted. -/
def State.flagThenShift (s : State) (x : Reg) (flag : Bool) (shift : Byte → Byte) : State :=
  (s.setFlag flag).setReg x (shift ((s.setFlag flag).reg x))

end Sys2Proof.Machine
end

