-- ==== Sys2Proof/Machine/Operands.lean ====
section
/-! DEFINITION. Every operand form: immediates, jump targets, the index register's values, the decimal digits and
the key index (30_encoding.md R61, 41_control_flow.md, 42_memory.md, 44_timer_input.md). -/

namespace Sys2Proof.Machine

/-- `zext_16(nnn)`, the address operand (R61, R108). -/
def addressOperand (nnn : BitVec 12) : Word := nnn.setWidth 16

/-- The target of Bnnn, `zext_16(V[0]) + zext_16(nnn)`, not reduced to twelve bits (R103). -/
def State.jumpV0Target (s : State) (nnn : BitVec 12) : Word := (s.reg 0).toWord + addressOperand nnn

/-- The new I of Fx1E: a sixteen-bit sum, modulo 65536 (R116). -/
def State.indexSum (s : State) (x : Reg) : Word := s.i + (s.reg x).toWord

/-- The glyph address of Fx29, `V[x] * 5` in sixteen bits, V[x] not masked (R117). -/
def glyphAddress (b : Byte) : Word := b.toWord * 5

/-- The three bytes of Fx33: hundreds, tens, ones (R118). -/
def decimalDigits (b : Byte) : List Byte :=
  [BitVec.ofNat 8 (b.toNat / 100), BitVec.ofNat 8 (b.toNat / 10 % 10), BitVec.ofNat 8 (b.toNat % 10)]

/-- The bytes of Fx55: V[0] to V[x] (R119). -/
def State.storedRegs (s : State) (x : Reg) : List Byte := (regsUpTo x).map s.reg

/-- The key number of Ex9E and ExA1: V[x] when a latch has it, none above 15 (R142, R27). -/
def State.keyIndex (s : State) (x : Reg) : Option (Fin 16) :=
  if h : (s.reg x).toNat < 16 then some ⟨(s.reg x).toNat, h⟩ else none

end Sys2Proof.Machine
end

