-- ==== Sys2Proof/Machine/Arith.lean ====
section
/-! DEFINITION. Arithmetic, logic, move and random instructions (40_arithmetic.md R80 to R93). None of them can
fault, and each ends with `pc <- pc0 + 2`. -/

namespace Sys2Proof.Machine

/-- R80: `V[x] <- kk`. -/
def execLdVxKk (x : Reg) (kk : Byte) (s : State) : Result := .next (s.setReg x kk).advance

/-- R81: `V[x] <- (V[x] + kk) mod 256`, no flag. -/
def execAddVxKk (x : Reg) (kk : Byte) (s : State) : Result := .next (s.setReg x (s.reg x + kk)).advance

/-- R82: `V[x] <- V[y]`. -/
def execLdVxVy (x y : Reg) (s : State) : Result := .next (s.setReg x (s.reg y)).advance

/-- R83: `V[x] <- V[x] OR V[y]`, no flag. -/
def execOrVxVy (x y : Reg) (s : State) : Result := .next (s.setReg x (s.reg x ||| s.reg y)).advance

/-- R84: `V[x] <- V[x] AND V[y]`, no flag. -/
def execAndVxVy (x y : Reg) (s : State) : Result := .next (s.setReg x (s.reg x &&& s.reg y)).advance

/-- R85: `V[x] <- V[x] XOR V[y]`, no flag. -/
def execXorVxVy (x y : Reg) (s : State) : Result := .next (s.setReg x (s.reg x ^^^ s.reg y)).advance

/-- R86: the sum modulo 256, then VF := carry. -/
def execAddVxVy (x y : Reg) (s : State) : Result :=
  .next (s.resultThenFlag x (s.reg x + s.reg y) (carry (s.reg x) (s.reg y))).advance

/-- R87: V[x] - V[y] modulo 256, then VF := no borrow. -/
def execSubVxVy (x y : Reg) (s : State) : Result :=
  .next (s.resultThenFlag x (s.reg x - s.reg y) (noBorrow (s.reg x) (s.reg y))).advance

/-- R88: VF := bit 0, then a logical shift right by one; the Y field is not used. -/
def execShrVx (x _y : Reg) (s : State) : Result :=
  .next (s.flagThenShift x (lowBit (s.reg x)) fun b => b >>> 1).advance

/-- R89: V[y] - V[x] modulo 256, then VF := no borrow. -/
def execSubnVxVy (x y : Reg) (s : State) : Result :=
  .next (s.resultThenFlag x (s.reg y - s.reg x) (noBorrow (s.reg y) (s.reg x))).advance

/-- R90: VF := bit 7 (mask 0x80), then a shift left by one modulo 256; the Y field is not used. -/
def execShlVx (x _y : Reg) (s : State) : Result :=
  .next (s.flagThenShift x (highBit (s.reg x)) fun b => b <<< 1).advance

/-- R91: `V[x] <- rnd() AND kk`, rnd the input of this machine cycle (R164), any byte. -/
def execRndVxKk (x : Reg) (kk : Byte) (s : State) : Result := .next (s.setReg x (s.input.rnd &&& kk)).advance

end Sys2Proof.Machine
end

