-- ==== Sys2Proof/Machine/Control.lean ====
section
/-! DEFINITION. Jumps, call, return and the register-comparing skips (41_control_flow.md R100 to R109). A target is
not checked when the jump executes, only by the next fetch (R108). -/

namespace Sys2Proof.Machine

/-- R100: `pc <- zext_16(nnn)`. -/
def execJp (nnn : BitVec 12) (s : State) : Result := .next (s.jump (addressOperand nnn))

/-- R101: push pc0 + 2, then jump; StackOverflow with info 16 when sixteen entries are live. -/
def execCall (nnn : BitVec 12) (s : State) : Result :=
  match s.push (s.pc + 2) with
  | some t => .next (t.jump (addressOperand nnn))
  | none => raise .stackOverflow 16 (encode (.call nnn)) s

/-- R102: pop into pc; StackUnderflow with info 0 when no entry is live. -/
def execRet (s : State) : Result :=
  match s.pop with
  | some (w, t) => .next (t.jump w)
  | none => raise .stackUnderflow 0 (encode .ret) s

/-- R103: `pc <- zext_16(V[0]) + zext_16(nnn)`. -/
def execJpV0Nnn (nnn : BitVec 12) (s : State) : Result := .next (s.jump (s.jumpV0Target nnn))

/-- R104: skip if V[x] = kk. -/
def execSeVxKk (x : Reg) (kk : Byte) (s : State) : Result := .next (s.skipIf (s.reg x == kk))

/-- R105: skip if V[x] differs from kk. -/
def execSneVxKk (x : Reg) (kk : Byte) (s : State) : Result := .next (s.skipIf (s.reg x != kk))

/-- R106: skip if V[x] = V[y]; the low nibble is ignored (R67). -/
def execSeVxVy (x y : Reg) (_n : BitVec 4) (s : State) : Result := .next (s.skipIf (s.reg x == s.reg y))

/-- R107: skip if V[x] differs from V[y]; the low nibble is ignored (R67). -/
def execSneVxVy (x y : Reg) (_n : BitVec 4) (s : State) : Result := .next (s.skipIf (s.reg x != s.reg y))

end Sys2Proof.Machine
end

