-- ==== Sys2Proof/Machine/Display.lean ====
section
/-! DEFINITION. The display instructions (43_display.md R130 to R135). -/

namespace Sys2Proof.Machine

/-- R132: every pixel off. -/
def execCls (s : State) : Result := .next (s.setFb Frame.blank).advance

/-- The draw of R133 within bounds: n bytes at I blitted at (V[x], V[y]), both read before VF is written, then
VF := the collision bit. -/
def State.drawSprite (s : State) (x y : Reg) (n : Nat) : State :=
  (s.setFb (blit s.fb (s.reg x).toNat (s.reg y).toNat (s.readBytes s.i.toNat n)).1).setFlag
    (blit s.fb (s.reg x).toNat (s.reg y).toNat (s.readBytes s.i.toNat n)).2

/-- R133: the draw, or DataReadOutOfBounds when n > 0 and the last sprite byte lies above 0xFFF. -/
def execDrw (x y : Reg) (n : BitVec 4) (s : State) : Result :=
  ifInBounds .dataReadOutOfBounds n.toNat (encode (.drw x y n)) s (s.drawSprite x y n.toNat).advance

end Sys2Proof.Machine
end

