-- ==== Sys2Proof/Machine/Index.lean ====
section
/-! DEFINITION. Index register and memory instructions (42_memory.md R115 to R120). The memory instructions do not
change I, and test their whole range before they change anything (20_memory.md R50). -/

namespace Sys2Proof.Machine

/-- R115: `I <- zext_16(nnn)`. -/
def execLdINnn (nnn : BitVec 12) (s : State) : Result := .next (s.setI (addressOperand nnn)).advance

/-- R116: I := I + V[x] modulo 65536, then VF := 1 if the new I exceeds 0xFFF. -/
def execAddIVx (x : Reg) (s : State) : Result :=
  .next ((s.setI (s.indexSum x)).setFlag (beyondMemory (s.indexSum x))).advance

/-- R117: `I <- zext_16(V[x]) * 5`. -/
def execLdFVx (x : Reg) (s : State) : Result := .next (s.setI (glyphAddress (s.reg x))).advance

/-- R118: the decimal digits of V[x] to MEM[I], MEM[I + 1], MEM[I + 2]. -/
def execLdBVx (x : Reg) (s : State) : Result :=
  ifInBounds .dataWriteOutOfBounds 3 (encode (.ldBVx x)) s
    (s.writeBytes s.i.toNat (decimalDigits (s.reg x))).advance

/-- R119: V[0] to V[x] to MEM[I] to MEM[I + x]. -/
def execLdMemVx (x : Reg) (s : State) : Result :=
  ifInBounds .dataWriteOutOfBounds (x.val + 1) (encode (.ldMemVx x)) s
    (s.writeBytes s.i.toNat (s.storedRegs x)).advance

/-- R120: MEM[I] to MEM[I + x] into V[0] to V[x]. -/
def execLdVxMem (x : Reg) (s : State) : Result :=
  ifInBounds .dataReadOutOfBounds (x.val + 1) (encode (.ldVxMem x)) s
    (s.loadRegs s.i.toNat (regsUpTo x)).advance

end Sys2Proof.Machine
end

