-- ==== Sys2Proof/Machine/Reserved.lean ====
section
/-! DEFINITION. Words that are not defined instructions (30_encoding.md R68, R69). -/

namespace Sys2Proof.Machine

/-- R68, family 8: `pc <- pc0 + 2`, nothing else. -/
def execReserved8 (_x _y : Reg) (_n : BitVec 4) (s : State) : Result := .next s.advance

/-- R68, family E: `pc <- pc0 + 2`, nothing else. -/
def execReservedE (_x : Reg) (_kk : Byte) (s : State) : Result := .next s.advance

/-- R68, family F, Fx0A and Fx18 among them (R70): `pc <- pc0 + 2`, nothing else. -/
def execReservedF (_x : Reg) (_kk : Byte) (s : State) : Result := .next s.advance

/-- R69: raise DecodeError, info 0, FAULT.op the word. -/
def execIllegal (nnn : BitVec 12) (s : State) : Result := raise .decodeError 0 (encode (.illegal nnn)) s

end Sys2Proof.Machine
end

