-- ==== Sys2Proof/Machine/TimerInput.lean ====
section
/-! DEFINITION. Timer and input-test instructions (44_timer_input.md R140 to R143). -/

namespace Sys2Proof.Machine

/-- R140: `V[x] <- DT`; the tick of this machine cycle comes after. -/
def execLdVxDt (x : Reg) (s : State) : Result := .next (s.setReg x s.dt).advance

/-- R141: `DT <- V[x]`. -/
def execLdDtVx (x : Reg) (s : State) : Result := .next (s.setDt (s.reg x)).advance

/-- R142: skip if latch V[x] is 1; KeyIndexOutOfRange with info V[x] when V[x] > 15. -/
def execSkp (x : Reg) (s : State) : Result :=
  match s.keyIndex x with
  | some k => .next (s.skipIf s.k[k.val])
  | none => raise .keyIndexOutOfRange (s.reg x).toWord (encode (.skp x)) s

/-- R143: skip if latch V[x] is 0; KeyIndexOutOfRange with info V[x] when V[x] > 15. -/
def execSknp (x : Reg) (s : State) : Result :=
  match s.keyIndex x with
  | some k => .next (s.skipIf !s.k[k.val])
  | none => raise .keyIndexOutOfRange (s.reg x).toWord (encode (.sknp x)) s

end Sys2Proof.Machine
end

