-- ==== Sys2Proof/Machine/Cycle.lean ====
section
/-! DEFINITION. The machine cycle (60_exceptions.md R159), the host's other events (70_reset_and_hazards.md R190 to
R196, 60_exceptions.md R166), and the place where the next instruction is fetched. -/

namespace Sys2Proof.Machine

/-! ### Phase 1: the instruction cycle (30_encoding.md R63) -/

/-- Both bytes of the fetch lie inside MEM (R24, R63). -/
def State.canFetch (s : State) : Bool := decide (s.pc.toNat + 1 ≤ 0xFFF)

/-- The two bytes at pc, the first one the high byte of the word (R46). -/
def State.fetchBytes (s : State) : List Byte := [s.readByte s.pc.toNat, s.readByte (s.pc.toNat + 1)]

/-- `InstructionCycle()` of R63. The advance of pc is part of each meaning, which finds pc0 in pc. -/
def instructionCycle (s : State) : Result :=
  if s.canFetch then
    match decode s.fetchBytes with
    | .ok (i, _) => exec i s
    | .error _ => .fault .undecodable
  else raise .fetchOutOfBounds (lowestBeyond s.pc) 0 s

/-! ### Phases 2 and 3 -/

/-- Phase 2: on a tick, DT counts down to its floor at zero (R160) and FLUSH hands over the framebuffer as it
stands after the instruction (R165). -/
def State.tickPhase (s : State) (tick : Bool) : State :=
  { s with
    dt := if s.dt != 0 && tick then s.dt - 1 else s.dt
    flushed := if tick then s.fb :: s.flushed else s.flushed }

/-- The key events applied in list order, a later one for the same key overriding (R162). -/
def applyKeys (k : Vector Bool 16) (events : List (Fin 16 × Bool)) : Vector Bool 16 :=
  events.foldl (fun l e => l.set e.1.val e.2) k

/-- Phase 3 (R159, R162). -/
def State.keyPhase (s : State) (events : List (Fin 16 × Bool)) : State :=
  { s with k := applyKeys s.k events }

/-- The host's event is used up; none is left over for a second step. -/
def State.popEvent (s : State) : State := { s with host := s.host.tail }

/-- One machine cycle has been issued: its event is used up, it is counted, and LOAD may no longer happen
(R192; logs 6, 7). -/
def State.endCycle (s : State) : State := { s.popEvent with cycle := s.cycle + 1, boot := .started }

/-- Phases 2 and 3 after the instruction cycle left the state t, or neither if it raised a fault (R151). -/
def afterInstruction (inp : CycleInput) (t : State) : State :=
  if t.halted then t.endCycle else ((t.tickPhase inp.tick).keyPhase inp.keys).endCycle

/-- `MachineCycle(tick, rnd, keys)` (R159). Halted, it does nothing (R156); a fault ends it after phase 1, with
phases 2 and 3 not performed (R151). -/
def machineCycle (s : State) : Result :=
  if s.halted then .next s.endCycle
  else
    match instructionCycle s with
    | .next t => .next (afterInstruction s.input t)
    | .fault r => .fault r
    | .refused r => .refused r

/-! ### The host's other events -/

/-- RESET (R190, R191): everything as R32 says. The parameter FONT and the host's own side stay (log 8). -/
def State.hostReset (s : State) (rest : List HostEvent) : State :=
  State.afterReset s.font rest s.cycle s.flushed

/-- The state after LOAD of an image that fits (R192): its bytes from 0x200 on, and LOAD is used up. -/
def State.loaded (s : State) (image : List Byte) : State :=
  { (s.writeBytes Config.progBase image).popEvent with boot := .started }

/-- The state after LOAD of an image that does not fit (R193): nothing copied, RomTooLarge latched. -/
def State.romTooLarge (s : State) (image : List Byte) : State :=
  { s.popEvent with
    boot := .started
    fault := ⟨.romTooLarge, 0x200, 0, BitVec.ofNat 16 (min image.length 0xFFFF)⟩ }

/-- LOAD (R192, R193): once, after RESET and before the first machine cycle; refused at any other time. -/
def hostLoad (image : List Byte) (s : State) : Result :=
  if s.boot = .awaitingLoad ∧ s.halted = false then
    if image.length ≤ Config.progMax then .next (s.loaded image) else .next (s.romTooLarge image)
  else .refused .loadOutsideBoot

/-- Quit (R166): no machine cycle is issued any more and nothing changes; only a RESET directly behind it starts
the machine again (R196; log 2). -/
def hostQuit (rest : List HostEvent) (s : State) : Result :=
  match rest with
  | .reset :: rest' => .next (s.hostReset rest')
  | _ => .next s

/-- What the host does next, and with nothing written down, a machine cycle whose inputs are free (log 2). -/
def hostStep (s : State) : Result :=
  match s.host with
  | .reset :: rest => .next (s.hostReset rest)
  | .load image :: _ => hostLoad image s
  | .quit :: rest => hostQuit rest s
  | .cycle _ :: _ => machineCycle s
  | [] => machineCycle s

/-! ### Placing an instruction and inputs -/

/-- Whether an event issues a machine cycle. -/
def HostEvent.isCycle : HostEvent → Bool
  | .cycle _ => true
  | .reset => false
  | .load _ => false
  | .quit => false

/-- All that a fetch by the very next step needs: the engine is not halted, pc leaves room for two bytes, and the
host's next event is a machine cycle. A state that is ready already is not changed (log 12). -/
def State.readyToFetch (s : State) : State :=
  { s with
    fault := if s.halted then FaultLatch.clear else s.fault
    pc := if s.canFetch then s.pc else 0x200
    host := s.host.dropWhile fun e => !e.isCycle }

/-- The state with the table's word stored where the next fetch reads it (log 12). -/
def State.placeWord (s : State) (nbits w : Nat) : State :=
  s.readyToFetch.writeBytes s.readyToFetch.pc.toNat
    [(bytesOfTableWord nbits w).1, (bytesOfTableWord nbits w).2]

/-- The state with these machine cycles at the front of the host's queue, for a run with chosen inputs. -/
def State.withInputs (s : State) (inputs : List CycleInput) : State :=
  { s with host := inputs.map .cycle ++ s.host }

end Sys2Proof.Machine
end

