-- ==== Sys2Proof/Machine/Step.lean ====
section
/-! DEFINITION. The step of the whole machine, host and engine, and where an instruction is placed for it. -/

namespace Sys2Proof.Machine

/-- One step: the host's next event, which is a machine cycle (60_exceptions.md R159) unless the queue says
RESET, LOAD or quit. -/
def step (s : State) : Host.Outcome State Fault Refusal := hostStep s

/-- The state whose very next step fetches and runs the instruction with this table word (log 12). -/
def State.withFetchWord (s : State) (nbits w : Nat) : State := s.placeWord nbits w

end Sys2Proof.Machine
end

