-- ==== Sys2Proof/Safety.lean ====
section
/-! DEFINITION. What counts as a safe run, the invariant of the machine, and the words the statements are made of:
what an instruction leaves unchanged, and which pixels a sprite covers. -/

namespace Sys2Proof.Machine

/-! ### Safe runs -/

/-- A run of k steps that never halts the engine (60_exceptions.md R156: "a faulted state is ... never a final
state of a successful run"). -/
def SafeRun (k : Nat) (s : State) : Prop :=
  ∀ j ≤ k, ∃ t : State, Host.Core.run Sys2Proof.core j s = .next t ∧ t.halted = false

/-- A final state in the sense of R200: no fault, and the word at pc is a jump to pc itself. -/
def State.isFinal (s : State) : Prop :=
  s.halted = false ∧ s.canFetch = true ∧
    ∃ nnn : BitVec 12, decode s.fetchBytes = .ok (.jp nnn, []) ∧ addressOperand nnn = s.pc

/-- The engine is not halted and what the host does next is a machine cycle. -/
def State.ready (s : State) : Prop :=
  s.halted = false ∧ (s.host = [] ∨ ∃ inp rest, s.host = .cycle inp :: rest)

/-- Every piece of state at the value of the reset table of R32: MEM[0x000] to MEM[0x04F] hold the machine's FONT
and every other cell is zero. -/
structure HasResetValues (t : State) : Prop where
  registers : ∀ r : Reg, t.reg r = 0
  index : t.i = 0
  pc : t.pc = 0x200
  stack : ∀ j : Fin 16, t.stk[j.val] = 0
  depth : t.sp.val = 0
  timer : t.dt = 0
  keys : ∀ j : Fin 16, t.k[j.val] = false
  pixels : ∀ (x : Fin 64) (y : Fin 32), t.fb.pixel x y = false
  font : ∀ a : Fin 80, t.readByte a.val = t.font[a.val]
  memory : ∀ a : Nat, 80 ≤ a → t.readByte a = 0
  fault : t.fault.cause.code = 0 ∧ t.fault.pc = 0 ∧ t.fault.op = 0 ∧ t.fault.info = 0

/-! ### The invariant -/

/-- What every step keeps: memory in canonical form (log 5), pc and the stack in the range of R24, FAULT at its
reset value until the first fault (R30), and a machine that still awaits its LOAD as RESET left it (R192). -/
structure State.Inv (s : State) : Prop where
  memory_canonical : Memory.wf s.font s.mem = true
  pc_in_range : s.pc.toNat ≤ 0x10FE
  stack_in_range : ∀ j : Fin 16, s.stk[j.val].toNat ≤ 0x1000
  clear_while_running : s.halted = false → s.fault = FaultLatch.clear
  as_reset_while_awaiting_load : s.boot = .awaitingLoad → s = State.afterReset s.font s.host s.cycle s.flushed

/-! ### Frames -/

/-- The parts of the state an instruction may write, pc apart. -/
inductive Part where
  | v
  | i
  | stack
  | dt
  | fb
  | mem
  | fault
  deriving DecidableEq, Repr

/-- Every part but pc and those listed is unchanged: registers, I, the stack, DT, the framebuffer, every byte of
memory, FAULT; and no instruction ever changes the key latches or the host's side. -/
def KeptBut (ps : List Part) (s t : State) : Prop :=
  (Part.v ∉ ps → ∀ r : Reg, t.reg r = s.reg r) ∧
  (Part.i ∉ ps → t.i = s.i) ∧
  (Part.stack ∉ ps → t.stk = s.stk ∧ t.sp = s.sp) ∧
  (Part.dt ∉ ps → t.dt = s.dt) ∧
  (Part.fb ∉ ps → t.fb = s.fb) ∧
  (Part.mem ∉ ps → ∀ a : Nat, t.readByte a = s.readByte a) ∧
  (Part.fault ∉ ps → t.fault = s.fault) ∧
  t.k = s.k ∧ t.boot = s.boot ∧ t.font = s.font ∧ t.host = s.host ∧ t.cycle = s.cycle ∧ t.flushed = s.flushed

/-- Every register but those listed is unchanged. -/
def RegsKeptBut (rs : List Reg) (s t : State) : Prop := ∀ r : Reg, r ∉ rs → t.reg r = s.reg r

/-- Every byte of memory outside the n bytes at a is unchanged. -/
def MemKeptOutside (a n : Nat) (s t : State) : Prop :=
  ∀ b : Nat, b < a ∨ a + n ≤ b → t.readByte b = s.readByte b

/-- Some bit that is 1 of the n sprite rows at I, drawn at (px, py), falls on the pixel (x, y): row j is the byte
at I + j, its column c is bit 7 - c, and both coordinates wrap on their own (R131). -/
def SpriteCovers (s : State) (px py n : Nat) (x : Fin 64) (y : Fin 32) : Prop :=
  ∃ j c : Nat, j < n ∧ c < 8 ∧ (s.readByte (s.i.toNat + j)).getLsbD (7 - c) = true ∧
    x.val = (px + c) % 64 ∧ y.val = (py + j) % 32

/-- Two states that differ at most in stack entries that are not live, STK[SP] and above (R25). -/
def SameButDeadStack (s t : State) : Prop :=
  t = { s with stk := t.stk } ∧ ∀ j : Fin 16, j.val < s.sp.val → t.stk[j.val] = s.stk[j.val]

end Sys2Proof.Machine

namespace Sys2Proof

open Machine

/-! ### What the rules say of each instruction -/

/-- The registers whose value a rule lets an instruction write: its destinations, and VF where it produces a
flag (10_state.md R21, R34). -/
def Instr.writesReg : Instr → Reg → Bool
  | .ldVxKk x _, r | .addVxKk x _, r | .ldVxVy x _, r | .orVxVy x _, r | .andVxVy x _, r | .xorVxVy x _, r
  | .rndVxKk x _, r | .ldVxDt x, r => r == x
  | .addVxVy x _, r | .subVxVy x _, r | .shrVx x _, r | .subnVxVy x _, r | .shlVx x _, r => r == x || r == 15
  | .drw _ _ _, r | .addIVx _, r => r == 15
  | .ldVxMem x, r => decide (r ≤ x)
  | .cls, _ | .ret, _ | .jp _, _ | .call _, _ | .seVxKk _ _, _ | .sneVxKk _ _, _ | .seVxVy _ _ _, _
  | .sneVxVy _ _ _, _ | .ldINnn _, _ | .jpV0Nnn _, _ | .skp _, _ | .sknp _, _ | .ldDtVx _, _ | .ldFVx _, _
  | .ldBVx _, _ | .ldMemVx _, _ | .reserved8 _ _ _, _ | .reservedE _ _, _ | .reservedF _ _, _
  | .illegal _, _ => false

/-- The one condition under which an instruction raises a fault, with its cause and detail, and none when it
completes (60_exceptions.md R150, R152, R153). -/
def Instr.faultOf (i : Instr) (s : State) : Option (Cause × Word) :=
  match i with
  | .illegal _ => some (.decodeError, 0)
  | .call _ => if s.sp.val = 16 then some (.stackOverflow, 16) else none
  | .ret => if s.sp.val = 0 then some (.stackUnderflow, 0) else none
  | .drw _ _ n =>
    if 0 < n.toNat ∧ 0xFFF < s.i.toNat + n.toNat - 1 then some (.dataReadOutOfBounds, lowestBeyond s.i) else none
  | .ldVxMem x => if 0xFFF < s.i.toNat + x.val then some (.dataReadOutOfBounds, lowestBeyond s.i) else none
  | .ldMemVx x => if 0xFFF < s.i.toNat + x.val then some (.dataWriteOutOfBounds, lowestBeyond s.i) else none
  | .ldBVx _ => if 0xFFF < s.i.toNat + 2 then some (.dataWriteOutOfBounds, lowestBeyond s.i) else none
  | .skp x | .sknp x => if 15 < (s.reg x).toNat then some (.keyIndexOutOfRange, (s.reg x).toWord) else none
  | .cls | .jp _ | .seVxKk _ _ | .sneVxKk _ _ | .seVxVy _ _ _ | .ldVxKk _ _ | .addVxKk _ _ | .ldVxVy _ _
  | .orVxVy _ _ | .andVxVy _ _ | .xorVxVy _ _ | .addVxVy _ _ | .subVxVy _ _ | .shrVx _ _ | .subnVxVy _ _
  | .shlVx _ _ | .sneVxVy _ _ _ | .ldINnn _ | .jpV0Nnn _ | .rndVxKk _ _ | .ldVxDt _ | .ldDtVx _ | .addIVx _
  | .ldFVx _ | .reserved8 _ _ _ | .reservedE _ _ | .reservedF _ _ => none

end Sys2Proof
end

