-- ==== Sys2Proof/Certificates/Slice0/Obligations.lean ====
section
/-! DEFINITION. The statements for the provers. `exec i s` runs the instruction i in the state s, whose pc is pc0. -/

open Sys2Proof Sys2Proof.Machine

/-! ### Encoding -/

/-- R64, R65: the word of every well-formed instruction, cut into its two bytes in memory order, decodes to that
instruction, with every operand. That the bits an instruction ignores come back too is the model's own (log 11). -/
def Obligations.DecodeOfEncodeIsTheInstruction : Prop :=
  ∀ i : Instr, i.wellFormed = true → decodeWord (encode i) = i ∧
    decode [BitVec.ofNat 8 ((encode i).toNat / 256), BitVec.ofNat 8 ((encode i).toNat % 256)] = .ok (i, [])

/-- R64: every one of the 65536 words decodes to one instruction, and a well-formed one. That it encodes back to the word,
so that no two words share an instruction and no bit of a word is dropped, is the model's own choice (log 11): by R67,
R88 and R90 words that differ only in ignored bits (5120 and 5121, 8206 and 82A6) are one instruction of the spec, which
the model keeps apart as two terms of one meaning. -/
def Obligations.WordDecodesToWhatEncodesToIt : Prop :=
  ∀ (w : Word) (i : Instr), decodeWord w = i ↔ i.wellFormed = true ∧ encode i = w

/-- R65: a word decodes to the instruction of a row exactly when `w AND mask = match` of that row, so the 32
patterns are pairwise disjoint. -/
def Obligations.RowsMatchExactlyTheirWords : Prop :=
  ∀ (w : Word) (k : Nat) (p : Pattern), definedPatterns[k]? = some p →
    (p.holds w = true ↔ (decodeWord w).definedRow = some k)

/-- A few words written out from the patterns of R65, R68 and R69; that the ignored bits of 5121 and 82A6 are kept in the
term is the model's own (log 11). -/
def Obligations.SampleWordsDecodeAsWrittenInTheMap : Prop :=
  decodeWord 0x00E0 = .cls ∧ decodeWord 0x00EE = .ret ∧ decodeWord 0x01E0 = .illegal 0x1E0 ∧
    decodeWord 0x2ABC = .call 0xABC ∧ decodeWord 0x5121 = .seVxVy 1 2 1 ∧ decodeWord 0x82A6 = .shrVx 2 10 ∧
    decodeWord 0xC10F = .rndVxKk 1 0x0F ∧ decodeWord 0xD125 = .drw 1 2 5 ∧ decodeWord 0xE7A1 = .sknp 7 ∧
    decodeWord 0xF355 = .ldMemVx 3 ∧ decodeWord 0xF00A = .reservedF 0 0x0A

/-! ### Arithmetic, logic, move and random -/

/-- R80, R81: LD Vx, kk and ADD Vx, kk, with their frame. -/
def Obligations.ImmediateLoadAndAdd : Prop :=
  ∀ (x : Reg) (kk : Byte) (s : State),
    (∃ t, exec (.ldVxKk x kk) s = .next t ∧ t.reg x = kk ∧
      RegsKeptBut [x] s t ∧ t.pc = s.pc + 2 ∧ KeptBut [.v] s t) ∧
    (∃ t, exec (.addVxKk x kk) s = .next t ∧ (t.reg x).toNat = ((s.reg x).toNat + kk.toNat) % 256 ∧
      RegsKeptBut [x] s t ∧ t.pc = s.pc + 2 ∧ KeptBut [.v] s t)

/-- R82 to R85: LD Vx, Vy and the three logic instructions, bit by bit, no flag written. -/
def Obligations.RegisterMoveAndLogic : Prop :=
  ∀ (x y : Reg) (s : State),
    (∃ t, exec (.ldVxVy x y) s = .next t ∧ t.reg x = s.reg y ∧
      RegsKeptBut [x] s t ∧ t.pc = s.pc + 2 ∧ KeptBut [.v] s t) ∧
    (∃ t, exec (.orVxVy x y) s = .next t ∧
      (∀ b : Nat, (t.reg x).getLsbD b = ((s.reg x).getLsbD b || (s.reg y).getLsbD b)) ∧
      RegsKeptBut [x] s t ∧ t.pc = s.pc + 2 ∧ KeptBut [.v] s t) ∧
    (∃ t, exec (.andVxVy x y) s = .next t ∧
      (∀ b : Nat, (t.reg x).getLsbD b = ((s.reg x).getLsbD b && (s.reg y).getLsbD b)) ∧
      RegsKeptBut [x] s t ∧ t.pc = s.pc + 2 ∧ KeptBut [.v] s t) ∧
    (∃ t, exec (.xorVxVy x y) s = .next t ∧
      (∀ b : Nat, (t.reg x).getLsbD b = ((s.reg x).getLsbD b ^^ (s.reg y).getLsbD b)) ∧
      RegsKeptBut [x] s t ∧ t.pc = s.pc + 2 ∧ KeptBut [.v] s t)

/-- R86: the sum modulo 256, then VF := 1 if the sum is 256 or more; with x = 0xF only the carry is left. -/
def Obligations.AddSetsTheCarry : Prop :=
  ∀ (x y : Reg) (s : State), ∃ t, exec (.addVxVy x y) s = .next t ∧
    (x ≠ 15 → (t.reg x).toNat = ((s.reg x).toNat + (s.reg y).toNat) % 256) ∧
    t.reg 15 = (if 256 ≤ (s.reg x).toNat + (s.reg y).toNat then 1 else 0) ∧
    RegsKeptBut [x, 15] s t ∧ t.pc = s.pc + 2 ∧ KeptBut [.v] s t

/-- R87, R89: both subtractions modulo 256, then VF := 1 if there is no borrow; with x = 0xF only the flag is
left. -/
def Obligations.SubtractionsSetNoBorrow : Prop :=
  ∀ (x y : Reg) (s : State),
    (∃ t, exec (.subVxVy x y) s = .next t ∧
      (x ≠ 15 → (t.reg x).toNat = ((s.reg x).toNat + 256 - (s.reg y).toNat) % 256) ∧
      t.reg 15 = (if (s.reg y).toNat ≤ (s.reg x).toNat then 1 else 0) ∧
      RegsKeptBut [x, 15] s t ∧ t.pc = s.pc + 2 ∧ KeptBut [.v] s t) ∧
    (∃ t, exec (.subnVxVy x y) s = .next t ∧
      (x ≠ 15 → (t.reg x).toNat = ((s.reg y).toNat + 256 - (s.reg x).toNat) % 256) ∧
      t.reg 15 = (if (s.reg x).toNat ≤ (s.reg y).toNat then 1 else 0) ∧
      RegsKeptBut [x, 15] s t ∧ t.pc = s.pc + 2 ∧ KeptBut [.v] s t)

/-- R88, R90: the shifts by one of V[x], whatever the Y field, VF := the bit shifted out; with x = 0xF the flag is
written first and then shifted itself, so VF ends 0 after SHR and 0 or 2 after SHL. -/
def Obligations.ShiftsSetTheBitShiftedOut : Prop :=
  ∀ (x y : Reg) (s : State),
    (∃ t, exec (.shrVx x y) s = .next t ∧
      (x ≠ 15 → (t.reg x).toNat = (s.reg x).toNat / 2 ∧ (t.reg 15).toNat = (s.reg x).toNat % 2) ∧
      (x = 15 → t.reg 15 = 0) ∧
      RegsKeptBut [x, 15] s t ∧ t.pc = s.pc + 2 ∧ KeptBut [.v] s t) ∧
    (∃ t, exec (.shlVx x y) s = .next t ∧
      (x ≠ 15 → (t.reg x).toNat = 2 * (s.reg x).toNat % 256 ∧
        t.reg 15 = (if 0x80 ≤ (s.reg x).toNat then 1 else 0)) ∧
      (x = 15 → t.reg 15 = (if 0x80 ≤ (s.reg 15).toNat then 2 else 0)) ∧
      RegsKeptBut [x, 15] s t ∧ t.pc = s.pc + 2 ∧ KeptBut [.v] s t)

/-- R91: V[x] is the random byte of this machine cycle AND kk, for every byte the host may give. -/
def Obligations.RandomMasksTheDrawnByte : Prop :=
  ∀ (x : Reg) (kk : Byte) (s : State), ∃ t, exec (.rndVxKk x kk) s = .next t ∧
    t.reg x = s.input.rnd &&& kk ∧
    (∀ (inp : CycleInput) (rest : List HostEvent), s.host = .cycle inp :: rest → t.reg x = inp.rnd &&& kk) ∧
    RegsKeptBut [x] s t ∧ t.pc = s.pc + 2 ∧ KeptBut [.v] s t

/-! ### Control flow -/

/-- R100, R103: the jumps write pc and nothing else, and JP V0 is not reduced to twelve bits. -/
def Obligations.JumpsWriteTheTarget : Prop :=
  ∀ (nnn : BitVec 12) (s : State),
    (∃ t, exec (.jp nnn) s = .next t ∧ t.pc.toNat = nnn.toNat ∧ KeptBut [] s t) ∧
    (∃ t, exec (.jpV0Nnn nnn) s = .next t ∧ t.pc.toNat = (s.reg 0).toNat + nnn.toNat ∧ KeptBut [] s t)

/-- R101: CALL pushes pc0 + 2 where SP points and jumps; with sixteen live entries it raises StackOverflow with
nothing else changed. -/
def Obligations.CallPushesTheReturnAddress : Prop :=
  ∀ (nnn : BitVec 12) (s : State),
    (s.sp.val < 16 → ∃ t, exec (.call nnn) s = .next t ∧
      (∀ j : Fin 16, t.stk[j.val] = if j.val = s.sp.val then s.pc + 2 else s.stk[j.val]) ∧
      t.sp.val = s.sp.val + 1 ∧ t.pc.toNat = nnn.toNat ∧ KeptBut [.stack] s t) ∧
    (s.sp.val = 16 → exec (.call nnn) s =
      .next { s with fault := ⟨.stackOverflow, s.pc, encode (.call nnn), 16⟩ })

/-- R102: RET decrements SP and loads pc from the entry, which stays; with no live entry it raises StackUnderflow
with nothing else changed. -/
def Obligations.ReturnPopsIntoPc : Prop :=
  ∀ s : State,
    (0 < s.sp.val → ∃ t, exec .ret s = .next t ∧
      (∀ j : Fin 16, j.val + 1 = s.sp.val → t.pc = s.stk[j.val]) ∧
      t.sp.val + 1 = s.sp.val ∧ t.stk = s.stk ∧ KeptBut [.stack] s t) ∧
    (s.sp.val = 0 → exec .ret s = .next { s with fault := ⟨.stackUnderflow, s.pc, 0x00EE, 0⟩ })

/-- R109: a call and then a return restore pc to the address after the call and the depth to what it was, and leave
every live entry and everything else alone. -/
def Obligations.CallThenReturnComesBack : Prop :=
  ∀ (nnn : BitVec 12) (s : State), s.sp.val < 16 →
    ∃ t u, exec (.call nnn) s = .next t ∧ exec .ret t = .next u ∧ u.pc = s.pc + 2 ∧ u.sp = s.sp ∧
      (∀ j : Fin 16, j.val < s.sp.val → u.stk[j.val] = s.stk[j.val]) ∧ KeptBut [.stack] s u

/-- R104 to R107: the four comparing skips write pc and nothing else; the low nibble of the register forms is
ignored. -/
def Obligations.SkipsCompareForEquality : Prop :=
  ∀ (x y : Reg) (kk : Byte) (n : BitVec 4) (s : State),
    (∃ t, exec (.seVxKk x kk) s = .next t ∧
      t.pc = s.pc + (if (s.reg x).toNat = kk.toNat then 4 else 2) ∧ KeptBut [] s t) ∧
    (∃ t, exec (.sneVxKk x kk) s = .next t ∧
      t.pc = s.pc + (if (s.reg x).toNat = kk.toNat then 2 else 4) ∧ KeptBut [] s t) ∧
    (∃ t, exec (.seVxVy x y n) s = .next t ∧
      t.pc = s.pc + (if (s.reg x).toNat = (s.reg y).toNat then 4 else 2) ∧ KeptBut [] s t) ∧
    (∃ t, exec (.sneVxVy x y n) s = .next t ∧
      t.pc = s.pc + (if (s.reg x).toNat = (s.reg y).toNat then 2 else 4) ∧ KeptBut [] s t)

/-! ### Index register and memory -/

/-- R115, R117: LD I, nnn and LD F, Vx, the product taken of the whole byte. -/
def Obligations.IndexLoadAndGlyphAddress : Prop :=
  ∀ (nnn : BitVec 12) (x : Reg) (s : State),
    (∃ t, exec (.ldINnn nnn) s = .next t ∧ t.i.toNat = nnn.toNat ∧ t.pc = s.pc + 2 ∧ KeptBut [.i] s t) ∧
    (∃ t, exec (.ldFVx x) s = .next t ∧ t.i.toNat = (s.reg x).toNat * 5 ∧ t.pc = s.pc + 2 ∧ KeptBut [.i] s t)

/-- R116: I plus V[x] modulo 65536, then VF := 1 if the new I exceeds 0xFFF; with x = 0xF the old VF is the
addend. -/
def Obligations.AddToIndexSetsTheFlag : Prop :=
  ∀ (x : Reg) (s : State), ∃ t, exec (.addIVx x) s = .next t ∧
    t.i.toNat = (s.i.toNat + (s.reg x).toNat) % 65536 ∧
    t.reg 15 = (if 0xFFF < t.i.toNat then 1 else 0) ∧
    RegsKeptBut [15] s t ∧ t.pc = s.pc + 2 ∧ KeptBut [.v, .i] s t

/-- R118: the three decimal digits of V[x] go to MEM[I], MEM[I+1], MEM[I+2] and nothing else changes; if one of the
three lies above 0xFFF, DataWriteOutOfBounds is raised and nothing is written. -/
def Obligations.DecimalDigitsAreStored : Prop :=
  ∀ (x : Reg) (s : State),
    (s.i.toNat + 2 ≤ 0xFFF → ∃ t, exec (.ldBVx x) s = .next t ∧
      (t.readByte s.i.toNat).toNat = (s.reg x).toNat / 100 ∧
      (t.readByte (s.i.toNat + 1)).toNat = (s.reg x).toNat / 10 % 10 ∧
      (t.readByte (s.i.toNat + 2)).toNat = (s.reg x).toNat % 10 ∧
      MemKeptOutside s.i.toNat 3 s t ∧ t.pc = s.pc + 2 ∧ KeptBut [.mem] s t) ∧
    (0xFFF < s.i.toNat + 2 → exec (.ldBVx x) s =
      .next { s with fault := ⟨.dataWriteOutOfBounds, s.pc, encode (.ldBVx x),
        BitVec.ofNat 16 (max s.i.toNat 0x1000)⟩ })

/-- R119: V[0] to V[x] go to MEM[I] to MEM[I+x] and nothing else changes, I included; if the last address exceeds
0xFFF, DataWriteOutOfBounds is raised and nothing is written. -/
def Obligations.RegistersAreStored : Prop :=
  ∀ (x : Reg) (s : State),
    (s.i.toNat + x.val ≤ 0xFFF → ∃ t, exec (.ldMemVx x) s = .next t ∧
      (∀ r : Reg, r ≤ x → t.readByte (s.i.toNat + r.val) = s.reg r) ∧
      MemKeptOutside s.i.toNat (x.val + 1) s t ∧ t.pc = s.pc + 2 ∧ KeptBut [.mem] s t) ∧
    (0xFFF < s.i.toNat + x.val → exec (.ldMemVx x) s =
      .next { s with fault := ⟨.dataWriteOutOfBounds, s.pc, encode (.ldMemVx x),
        BitVec.ofNat 16 (max s.i.toNat 0x1000)⟩ })

/-- R120: MEM[I] to MEM[I+x] go to V[0] to V[x] and nothing else changes, I and the registers above x included; if
the last address exceeds 0xFFF, DataReadOutOfBounds is raised and no register is written. -/
def Obligations.RegistersAreLoaded : Prop :=
  ∀ (x : Reg) (s : State),
    (s.i.toNat + x.val ≤ 0xFFF → ∃ t, exec (.ldVxMem x) s = .next t ∧
      (∀ r : Reg, t.reg r = if r ≤ x then s.readByte (s.i.toNat + r.val) else s.reg r) ∧
      t.pc = s.pc + 2 ∧ KeptBut [.v] s t) ∧
    (0xFFF < s.i.toNat + x.val → exec (.ldVxMem x) s =
      .next { s with fault := ⟨.dataReadOutOfBounds, s.pc, encode (.ldVxMem x),
        BitVec.ofNat 16 (max s.i.toNat 0x1000)⟩ })

/-- R119, R120 and the source's round trip (95_test_vectors.md S8): registers stored, then overwritten in any way,
are read back at the same I exactly, with no reload of I. -/
def Obligations.StoreThenLoadReturnsTheRegisters : Prop :=
  ∀ (x : Reg) (s : State) (v : Vector Byte 16), s.i.toNat + x.val ≤ 0xFFF →
    ∃ t u, exec (.ldMemVx x) s = .next t ∧ exec (.ldVxMem x) { t with v := v } = .next u ∧
      (∀ r : Reg, r ≤ x → u.reg r = s.reg r) ∧ (∀ r : Reg, x < r → u.reg r = v[r.val]) ∧ u.i = s.i

/-! ### Display -/

/-- R132: CLS turns every pixel off and changes nothing else. -/
def Obligations.ClearScreenTurnsEveryPixelOff : Prop :=
  ∀ s : State, ∃ t, exec .cls s = .next t ∧ (∀ (x : Fin 64) (y : Fin 32), t.fb.pixel x y = false) ∧
    t.pc = s.pc + 2 ∧ KeptBut [.fb] s t

/-- R131, R133: a draw within bounds flips exactly the pixels a sprite bit falls on, the position read before VF is
written, and sets VF to 1 if one of them was on, else 0; n = 0 reads no memory and cannot fault; out of bounds
DataReadOutOfBounds is raised with no pixel and no flag changed. -/
def Obligations.DrawXorsTheSpriteAndFlagsCollision : Prop :=
  ∀ (x y : Reg) (n : BitVec 4) (s : State),
    ((n = 0 ∨ s.i.toNat + n.toNat - 1 ≤ 0xFFF) → ∃ t, exec (.drw x y n) s = .next t ∧
      (∀ (px : Fin 64) (py : Fin 32),
        (SpriteCovers s (s.reg x).toNat (s.reg y).toNat n.toNat px py → t.fb.pixel px py = !s.fb.pixel px py) ∧
        (¬ SpriteCovers s (s.reg x).toNat (s.reg y).toNat n.toNat px py → t.fb.pixel px py = s.fb.pixel px py)) ∧
      ((∃ px py, s.fb.pixel px py = true ∧ SpriteCovers s (s.reg x).toNat (s.reg y).toNat n.toNat px py) →
        t.reg 15 = 1) ∧
      ((¬ ∃ px py, s.fb.pixel px py = true ∧ SpriteCovers s (s.reg x).toNat (s.reg y).toNat n.toNat px py) →
        t.reg 15 = 0) ∧
      RegsKeptBut [15] s t ∧ t.pc = s.pc + 2 ∧ KeptBut [.v, .fb] s t) ∧
    (n ≠ 0 ∧ 0xFFF < s.i.toNat + n.toNat - 1 → exec (.drw x y n) s =
      .next { s with fault := ⟨.dataReadOutOfBounds, s.pc, encode (.drw x y n),
        BitVec.ofNat 16 (max s.i.toNat 0x1000)⟩ })

/-- R135: two equal draws in a row, at the same position (the flag written by the first may be a position register),
restore the framebuffer exactly; the first one's flag is 1 exactly when the sprite covers a pixel that was on, the
second one's exactly when it covers a pixel that was off before the first. -/
def Obligations.DoubleDrawRestoresTheScreen : Prop :=
  ∀ (x y : Reg) (n : BitVec 4) (s : State), (n = 0 ∨ s.i.toNat + n.toNat - 1 ≤ 0xFFF) →
    ∃ t, exec (.drw x y n) s = .next t ∧
      (t.reg 15 = 1 ↔
        ∃ px py, s.fb.pixel px py = true ∧ SpriteCovers s (s.reg x).toNat (s.reg y).toNat n.toNat px py) ∧
      (t.reg x = s.reg x → t.reg y = s.reg y → ∃ u, exec (.drw x y n) t = .next u ∧ u.fb = s.fb ∧
        (u.reg 15 = 1 ↔
          ∃ px py, s.fb.pixel px py = false ∧ SpriteCovers s (s.reg x).toNat (s.reg y).toNat n.toNat px py))

/-! ### Timer and keys -/

/-- R140, R141: LD Vx, DT and LD DT, Vx, with their frame. -/
def Obligations.TimerIsReadAndWritten : Prop :=
  ∀ (x : Reg) (s : State),
    (∃ t, exec (.ldVxDt x) s = .next t ∧ t.reg x = s.dt ∧
      RegsKeptBut [x] s t ∧ t.pc = s.pc + 2 ∧ KeptBut [.v] s t) ∧
    (∃ t, exec (.ldDtVx x) s = .next t ∧ t.dt = s.reg x ∧ t.pc = s.pc + 2 ∧ KeptBut [.dt] s t)

/-- R142, R143: SKP and SKNP test the latch numbered by V[x] and write pc alone; above 15 they raise
KeyIndexOutOfRange with nothing else changed. -/
def Obligations.KeyTestsSkipOnTheLatch : Prop :=
  ∀ (x : Reg) (s : State),
    (∀ key : Fin 16, (s.reg x).toNat = key.val →
      (∃ t, exec (.skp x) s = .next t ∧
        t.pc = s.pc + (if s.k[key.val] = true then 4 else 2) ∧ KeptBut [] s t) ∧
      (∃ t, exec (.sknp x) s = .next t ∧
        t.pc = s.pc + (if s.k[key.val] = true then 2 else 4) ∧ KeptBut [] s t)) ∧
    (15 < (s.reg x).toNat →
      exec (.skp x) s = .next { s with fault := ⟨.keyIndexOutOfRange, s.pc, encode (.skp x),
        BitVec.ofNat 16 (s.reg x).toNat⟩ } ∧
      exec (.sknp x) s = .next { s with fault := ⟨.keyIndexOutOfRange, s.pc, encode (.sknp x),
        BitVec.ofNat 16 (s.reg x).toNat⟩ })

/-! ### Words that are not defined instructions -/

/-- R68: the unrecognised words of families 8, E and F, Fx0A and Fx18 among them, advance pc and change nothing
else. -/
def Obligations.ReservedWordsOnlyAdvance : Prop :=
  ∀ (x y : Reg) (n : BitVec 4) (kk : Byte) (s : State),
    (n ∈ [0x8, 0x9, 0xA, 0xB, 0xC, 0xD, 0xF] → decodeWord (wordRR 0x8 x y n) = .reserved8 x y n) ∧
    (kk ∉ [0x9E, 0xA1] → decodeWord (wordRI 0xE x kk) = .reservedE x kk) ∧
    (kk ∉ [0x07, 0x15, 0x1E, 0x29, 0x33, 0x55, 0x65] → decodeWord (wordRI 0xF x kk) = .reservedF x kk) ∧
    (∃ t, exec (.reserved8 x y n) s = .next t ∧ t.pc = s.pc + 2 ∧ KeptBut [] s t) ∧
    (∃ t, exec (.reservedE x kk) s = .next t ∧ t.pc = s.pc + 2 ∧ KeptBut [] s t) ∧
    (∃ t, exec (.reservedF x kk) s = .next t ∧ t.pc = s.pc + 2 ∧ KeptBut [] s t)

/-- R69: a word of family 0 other than 00E0 and 00EE raises DecodeError, FAULT.op the word, with nothing else
changed. -/
def Obligations.IllegalWordsRaiseDecodeError : Prop :=
  ∀ (nnn : BitVec 12) (s : State), nnn ≠ 0x0E0 → nnn ≠ 0x0EE →
    decodeWord (wordA 0x0 nnn) = .illegal nnn ∧
    exec (.illegal nnn) s = .next { s with fault := ⟨.decodeError, s.pc, wordA 0x0 nnn, 0⟩ }

/-! ### Rules over all instructions -/

/-- R34, R21: what each instruction may write, said of every instruction: the registers its rule names, I by three,
SP by two and the entries by one, DT by one, the framebuffer by two, memory by two; none writes K or the host's
side. -/
def Obligations.OnlyTheNamedInstructionsWrite : Prop :=
  ∀ (i : Instr) (s t : State), exec i s = .next t →
    (∀ r : Reg, t.reg r ≠ s.reg r → i.writesReg r = true) ∧
    (t.i ≠ s.i → (∃ nnn, i = .ldINnn nnn) ∨ (∃ x, i = .addIVx x) ∨ (∃ x, i = .ldFVx x)) ∧
    (t.sp ≠ s.sp → i = .ret ∨ ∃ nnn, i = .call nnn) ∧
    (t.stk ≠ s.stk → ∃ nnn, i = .call nnn) ∧
    (t.dt ≠ s.dt → ∃ x, i = .ldDtVx x) ∧
    (t.fb ≠ s.fb → i = .cls ∨ ∃ x y n, i = .drw x y n) ∧
    ((∃ a, t.readByte a ≠ s.readByte a) → (∃ x, i = .ldBVx x) ∨ ∃ x, i = .ldMemVx x) ∧
    t.k = s.k ∧ t.boot = s.boot ∧ t.font = s.font ∧ t.host = s.host ∧ t.cycle = s.cycle ∧ t.flushed = s.flushed

/-- R150, R152, R153: every instruction raises its one fault under exactly its condition, with cause, pc0, the word
and the detail recorded and nothing else changed, and completes with FAULT untouched in every other case. -/
def Obligations.InstructionsFaultExactlyUnderTheirCondition : Prop :=
  ∀ (i : Instr) (s : State),
    (∀ c info, i.faultOf s = some (c, info) → exec i s = .next { s with fault := ⟨c, s.pc, encode i, info⟩ }) ∧
    (i.faultOf s = none → ∃ t, exec i s = .next t ∧ t.fault = s.fault)

/-- R164, R159: no instruction but Cxkk depends on the host's inputs, and Cxkk only on the random byte: with another
queue and cycle count (logs 2, 3) everything comes out the same. -/
def Obligations.OnlyRandomReadsTheHostInput : Prop :=
  ∀ (i : Instr) (s t : State) (host : List HostEvent) (cycle : Nat), exec i s = .next t →
    (∀ x kk, i = .rndVxKk x kk → ({ s with host := host, cycle := cycle } : State).input.rnd = s.input.rnd) →
    exec i { s with host := host, cycle := cycle } = .next { t with host := host, cycle := cycle }

/-! ### The machine cycle -/

/-- R63, R46, R159: when the host issues a machine cycle and the engine is not halted, the two bytes at pc, the
first one high, decode to i, and i runs; then, unless i raised a fault, the timer, the flush and the keys follow;
the host's event is used up and the cycle counted (the model's own, logs 3, 6, 7). -/
def Obligations.StepRunsTheDecodedInstruction : Prop :=
  ∀ (s : State) (i : Instr), s.ready → s.pc.toNat + 1 ≤ 0xFFF →
    decode [s.readByte s.pc.toNat, s.readByte (s.pc.toNat + 1)] = .ok (i, []) →
    ∃ t, exec i s = .next t ∧
      (t.halted = true →
        step s = .next { t with host := s.host.tail, cycle := s.cycle + 1, boot := .started }) ∧
      (t.halted = false →
        step s = .next { t with
          dt := if s.input.tick = true ∧ t.dt ≠ 0 then t.dt - 1 else t.dt
          flushed := if s.input.tick = true then t.fb :: s.flushed else s.flushed
          k := applyKeys t.k s.input.keys
          host := s.host.tail, cycle := s.cycle + 1, boot := .started })

/-- R160, R165: after an instruction that raised no fault, a tick takes one from DT unless it is 0 and hands the
framebuffer to the host as the instruction left it; without a tick neither happens. The record of snapshots is the
model's own (log 8). -/
def Obligations.TickCountsDownAndFlushes : Prop :=
  ∀ (s t u : State) (inp : CycleInput) (rest : List HostEvent), s.host = .cycle inp :: rest →
    s.halted = false → instructionCycle s = .next t → t.halted = false → step s = .next u →
    (inp.tick = true → u.dt.toNat = t.dt.toNat - 1 ∧ u.flushed = t.fb :: s.flushed) ∧
    (inp.tick = false → u.dt = t.dt ∧ u.flushed = s.flushed) ∧ u.fb = t.fb

/-- R162: after an instruction that raised no fault, every key's latch is the last of this cycle's events for it,
and a key with no event keeps its latch. -/
def Obligations.LastKeyEventWins : Prop :=
  ∀ (s t u : State) (inp : CycleInput) (rest : List HostEvent), s.host = .cycle inp :: rest →
    s.halted = false → instructionCycle s = .next t → t.halted = false → step s = .next u →
    ∀ key : Fin 16,
      (∀ before b after, inp.keys = before ++ (key, b) :: after → (∀ e ∈ after, e.1 ≠ key) →
        u.k[key.val] = b) ∧
      ((∀ e ∈ inp.keys, e.1 ≠ key) → u.k[key.val] = s.k[key.val])

/-- R63, R152: a fetch that needs an address above 0xFFF raises FetchOutOfBounds with word 0 and changes nothing
else; the cycle is over, its event used up and counted (logs 3, 6, 7). -/
def Obligations.FetchBeyondMemoryFaults : Prop :=
  ∀ s : State, s.ready → 0xFFF < s.pc.toNat + 1 →
    step s = .next { s with
      fault := ⟨.fetchOutOfBounds, s.pc, 0, BitVec.ofNat 16 (max s.pc.toNat 0x1000)⟩
      host := s.host.tail, cycle := s.cycle + 1, boot := .started }

/-- R151: if a machine cycle ends with the engine halted, every part of the state is as before but FAULT, which
holds pc0 and the fetched word, or 0 where none was fetched; no tick and no key event was applied.
That the cycle's event is used up and counted is the model's own (logs 3, 6, 7). -/
def Obligations.FaultsArePreciseAndSkipTheOtherPhases : Prop :=
  ∀ s t : State, s.ready → step s = .next t → t.halted = true →
    t = { s with fault := t.fault, host := s.host.tail, cycle := s.cycle + 1, boot := .started } ∧
    t.fault.pc = s.pc ∧
    t.fault.op = (if s.pc.toNat + 1 ≤ 0xFFF
      then s.readByte s.pc.toNat ++ s.readByte (s.pc.toNat + 1) else 0)

/-- R156: while halted a machine cycle does nothing; that the host's event is used up and the cycle counted is the
model's own (logs 3, 6, 7). -/
def Obligations.HaltedCycleDoesNothing : Prop :=
  ∀ s : State, s.halted = true → (s.host = [] ∨ ∃ inp rest, s.host = .cycle inp :: rest) →
    step s = .next { s with host := s.host.tail, cycle := s.cycle + 1, boot := .started }

/-- R155, R156: once a fault is latched, no step but a RESET changes FAULT or any other piece of the engine's
state; the host's queue, the count of cycles and the boot phase are the model's own (logs 2, 3, 6). -/
def Obligations.OnlyResetLeavesAHalt : Prop :=
  ∀ s t : State, s.halted = true → step s = .next t →
    (∃ rest, s.host = .reset :: rest ∨ s.host = .quit :: .reset :: rest) ∨
    t = { s with host := t.host, cycle := t.cycle, boot := t.boot }

/-- R200: in a final state every machine cycle leaves V, I, pc, SP, STK, MEM and FB unchanged and the state
final. -/
def Obligations.FinalStateStaysFinal : Prop :=
  ∀ s : State, s.ready → s.isFinal → ∃ t, step s = .next t ∧ t.isFinal ∧
    t.v = s.v ∧ t.i = s.i ∧ t.pc = s.pc ∧ t.sp = s.sp ∧ t.stk = s.stk ∧ t.mem = s.mem ∧ t.fb = s.fb

/-! ### Reset, load and quit -/

/-- R32, R33: every piece of state has its value of the reset table. MEM[0x000] to MEM[0x04F] hold the machine's own
FONT, whatever it is; that State.reset's FONT is the default table is not said here (log 4). -/
def Obligations.ResetStateHasTheResetValues : Prop := HasResetValues State.reset

/-- R191, R196: RESET, from any state, halted or stopped too, gives every piece of state its reset value. That FONT and
the rest of the host's queue stay, and that LOAD may happen again, is the model's own (logs 2, 4, 6). -/
def Obligations.ResetEventRestoresEveryValue : Prop :=
  ∀ (s : State) (rest : List HostEvent), (s.host = .reset :: rest ∨ s.host = .quit :: .reset :: rest) →
    ∃ t, step s = .next t ∧ HasResetValues t ∧ t.boot = .awaitingLoad ∧ t.font = s.font ∧ t.host = rest

/-- R192: LOAD of at most 3584 bytes after RESET and before the first machine cycle copies the image to 0x200
onward and changes nothing else of the engine, and LOAD may not happen again (the boot phase, log 6); at any
other time it is refused. -/
def Obligations.LoadCopiesTheImageOnce : Prop :=
  ∀ (s : State) (image : List Byte) (rest : List HostEvent), s.host = .load image :: rest →
    (s.boot = .awaitingLoad → s.halted = false → image.length ≤ 3584 → ∃ t, step s = .next t ∧
      (∀ (j : Nat) (h : j < image.length), t.readByte (0x200 + j) = image[j]) ∧
      MemKeptOutside 0x200 image.length s t ∧
      t = { s with mem := t.mem, boot := .started, host := rest }) ∧
    (s.boot = .started → step s = .refused .loadOutsideBoot)

/-- R193: LOAD of more than 3584 bytes copies nothing, latches RomTooLarge with the length, and halts the engine
before its first cycle; the event is used up and the boot phase over (logs 2, 6). -/
def Obligations.RomTooLargeCopiesNothing : Prop :=
  ∀ (s : State) (image : List Byte) (rest : List HostEvent), s.host = .load image :: rest →
    s.boot = .awaitingLoad → s.halted = false → 3584 < image.length →
    step s = .next { s with
      fault := ⟨.romTooLarge, 0x200, 0, BitVec.ofNat 16 (min image.length 0xFFFF)⟩
      boot := .started, host := rest }

/-- R166, R196: after quit no cycle is issued and nothing changes, unless the host resets the machine; the queue is
the model's own (log 2). -/
def Obligations.QuitChangesNothing : Prop :=
  ∀ (s : State) (rest : List HostEvent), s.host = .quit :: rest → (∀ rest', rest ≠ .reset :: rest') →
    step s = .next s

/-- Log 12, the model's own: whatever the state, with a table word placed the very next step is a machine cycle
that fetches and runs the instruction the decoder reads from that word. -/
def Obligations.PlacedWordIsRunNext : Prop :=
  ∀ (s : State) (w : Word), ∃ i, decodeTableWord 16 w.toNat = some i ∧ i = decodeWord w ∧
    (s.withFetchWord 16 w.toNat).ready ∧
    instructionCycle (s.withFetchWord 16 w.toNat) = exec i (s.withFetchWord 16 w.toNat)

/-! ### Invariants -/

/-- The invariant of `EveryStepKeepsTheInvariant` holds at reset. -/
def Obligations.InvariantHoldsAtReset : Prop := State.reset.Inv

/-- R24, R25, R30, R192: from every state that meets the invariant, every step gives a state that meets it: memory
stays canonical (the model's own, log 5), pc never exceeds 0x10FE and a stack entry never 0x1000, FAULT stays clear
until a fault, and a
machine that awaits its LOAD (log 6) is as RESET left it. -/
def Obligations.EveryStepKeepsTheInvariant : Prop :=
  ∀ s t : State, s.Inv → step s = .next t → t.Inv

/-- Log 5: two memories in canonical form that read the same everywhere are the same list. -/
def Obligations.CanonicalMemoryIsUnique : Prop :=
  ∀ (font : Vector Byte Config.fontSize) (m m' : Memory), Memory.wf font m = true → Memory.wf font m' = true →
    (∀ a : Nat, Memory.read font m a = Memory.read font m' a) → m = m'

/-- R25: a stack entry that is not live is never observed: two states that differ only there step alike, to states
that again differ only there. -/
def Obligations.DeadStackEntriesAreNeverObserved : Prop :=
  ∀ s t : State, SameButDeadStack s t →
    (∀ s', step s = .next s' → ∃ t', step t = .next t' ∧ SameButDeadStack s' t') ∧
    (∀ r, step s = .refused r → step t = .refused r)
end

