-- ==== Sys2Proof/Laws/Memory.lean ====
section
/-! SUPPORT. The laws of memory: a byte written reads back, every other byte stays, and every operation keeps the
canonical form. -/

namespace Sys2Proof.Machine

variable {font : Vector Byte Config.fontSize}

/-! ### Reads after writes -/

theorem Memory.read_insert (m : Memory) (a p : Nat) (b : Byte) :
    Memory.read font (Memory.insert a b m) p = if p = a then b else Memory.read font m p := by
  induction m with
  | nil =>
    by_cases h : p = a
    · simp [Memory.insert, Memory.read, h]
    · have h' : a ≠ p := fun e => h e.symm
      simp [Memory.insert, Memory.read, h, h']
  | cons c m ih =>
    unfold Memory.insert
    by_cases h : p = a
    · subst h
      by_cases h1 : p < c.1
      · simp [h1, Memory.read]
      · by_cases h2 : p = c.1
        · simp [h2, Memory.read]
        · have : c.1 ≠ p := fun e => h2 e.symm
          simp [h1, h2, Memory.read, this, ih]
    · have h' : a ≠ p := fun e => h e.symm
      by_cases h1 : a < c.1
      · simp [h1, Memory.read, h, h']
      · by_cases h2 : a = c.1
        · subst h2; simp [Memory.read, h, h']
        · simp [h1, h2, Memory.read, h, ih]

theorem Memory.read_erase_self (m : Memory) (a : Nat) :
    Memory.read font (Memory.erase a m) a = unlisted font a := by
  induction m with
  | nil => rfl
  | cons c m ih =>
    by_cases h : c.1 = a
    · simpa [Memory.erase, h] using ih
    · simpa [Memory.erase, Memory.read, h] using ih

theorem Memory.read_erase_ne (m : Memory) (a p : Nat) (hp : p ≠ a) :
    Memory.read font (Memory.erase a m) p = Memory.read font m p := by
  induction m with
  | nil => rfl
  | cons c m ih =>
    by_cases h : c.1 = a
    · have : c.1 ≠ p := fun e => hp (e ▸ h)
      simpa [Memory.erase, Memory.read, h, this, hp.symm] using ih
    · by_cases hc : c.1 = p
      · simp [Memory.erase, Memory.read, hc, hp]
      · simpa [Memory.erase, Memory.read, h, hc] using ih

/-- A byte written reads back, and every other byte stays (20_memory.md R51). -/
theorem Memory.read_write (m : Memory) (a p : Nat) (b : Byte) :
    Memory.read font (Memory.write font m a b) p = if p = a then b else Memory.read font m p := by
  unfold Memory.write
  by_cases hb : b = unlisted font a
  · by_cases hp : p = a
    · subst hp; simp [← hb, Memory.read_erase_self]
    · simp [hb, hp, Memory.read_erase_ne]
  · simp [hb, Memory.read_insert]

/-- Bytes written in a row read back in that order, and every other byte stays (R44). -/
theorem Memory.read_writeBytes (bs : List Byte) (m : Memory) (a p : Nat) :
    Memory.read font (Memory.writeBytes font m a bs) p =
      if h : a ≤ p ∧ p - a < bs.length then bs[p - a]'h.2 else Memory.read font m p := by
  induction bs generalizing m a with
  | nil => simp [Memory.writeBytes]
  | cons b bs ih =>
    rw [Memory.writeBytes, ih, Memory.read_write]
    by_cases hp : p = a
    · subst hp; simp
    · by_cases hlt : p < a
      · have h1 : ¬ (a + 1 ≤ p ∧ p - (a + 1) < bs.length) := by omega
        have h2 : ¬ (a ≤ p ∧ p - a < (b :: bs).length) := by omega
        rw [dif_neg h1, if_neg hp, dif_neg h2]
      · obtain ⟨k, rfl⟩ : ∃ k, p = a + 1 + k := ⟨p - (a + 1), by omega⟩
        have e : a + 1 + k - a = k + 1 := by omega
        simp only [Nat.le_add_right, Nat.add_sub_cancel_left, true_and, List.length_cons, e,
          Nat.add_lt_add_iff_right, List.getElem_cons_succ, hp, if_false]
        have : a ≤ a + 1 + k := by omega
        simp [this]

/-! ### The canonical form -/

theorem Memory.rising_mono {lo lo' : Nat} {m : Memory} (h : Memory.rising lo' m = true) (hl : lo ≤ lo') :
    Memory.rising lo m = true := by
  cases m with
  | nil => rfl
  | cons c m =>
    simp only [Memory.rising, Bool.and_eq_true, decide_eq_true_eq] at h ⊢
    exact ⟨by omega, h.2⟩

theorem Memory.rising_insert {m : Memory} {lo a : Nat} (b : Byte) (h : Memory.rising lo m = true) (ha : lo ≤ a) :
    Memory.rising lo (Memory.insert a b m) = true := by
  induction m generalizing lo with
  | nil => simp [Memory.insert, Memory.rising, ha]
  | cons c m ih =>
    simp only [Memory.rising, Bool.and_eq_true, decide_eq_true_eq] at h
    unfold Memory.insert
    by_cases h1 : a < c.1
    · simp only [h1, if_true, Memory.rising, Bool.and_eq_true, decide_eq_true_eq]
      exact ⟨ha, by omega, h.2⟩
    · by_cases h2 : a = c.1
      · subst h2
        simp only [Nat.lt_irrefl, if_true, if_false, Memory.rising, Bool.and_eq_true, decide_eq_true_eq]
        exact h
      · simp only [h1, h2, if_false, Memory.rising, Bool.and_eq_true, decide_eq_true_eq]
        exact ⟨h.1, ih h.2 (by omega)⟩

theorem Memory.rising_erase {m : Memory} {lo : Nat} (a : Nat) (h : Memory.rising lo m = true) :
    Memory.rising lo (Memory.erase a m) = true := by
  induction m generalizing lo with
  | nil => rfl
  | cons c m ih =>
    simp only [Memory.rising, Bool.and_eq_true, decide_eq_true_eq] at h
    by_cases hc : c.1 = a
    · have := Memory.rising_mono (ih h.2) (Nat.le_succ_of_le h.1)
      simpa [Memory.erase, hc] using this
    · have := ih h.2
      simp only [Memory.erase] at this
      simp [Memory.erase, hc, Memory.rising, h.1, this]

/-- A cell of the inserted list is the new one or an old one. -/
theorem Memory.mem_insert {m : Memory} {a : Nat} {b : Byte} {c : Host.Cell} (h : c ∈ Memory.insert a b m) :
    c = (a, b) ∨ c ∈ m := by
  induction m with
  | nil => simpa [Memory.insert] using h
  | cons d m ih =>
    unfold Memory.insert at h
    split at h
    · simpa using h
    · split at h
      · rcases List.mem_cons.1 h with h | h
        · exact .inl h
        · exact .inr (List.mem_cons_of_mem _ h)
      · rcases List.mem_cons.1 h with h | h
        · exact .inr (h ▸ List.mem_cons_self)
        · exact (ih h).imp id (List.mem_cons_of_mem _)

/-- The canonical form, said of each cell. -/
theorem Memory.wf_iff (m : Memory) : Memory.wf font m = true ↔
    Memory.rising 0 m = true ∧ ∀ c ∈ m, c.1 < Config.memSize ∧ c.2 ≠ unlisted font c.1 := by
  simp [Memory.wf, List.all_eq_true]

/-- A write inside the address space keeps the canonical form. -/
theorem Memory.wf_write {m : Memory} {a : Nat} (b : Byte) (h : Memory.wf font m = true)
    (ha : a < Config.memSize) : Memory.wf font (Memory.write font m a b) = true := by
  rw [Memory.wf_iff] at h ⊢
  unfold Memory.write
  by_cases hb : b = unlisted font a
  · rw [if_pos hb]
    exact ⟨Memory.rising_erase a h.1, fun c hc => h.2 c (List.mem_of_mem_filter hc)⟩
  · rw [if_neg hb]
    refine ⟨Memory.rising_insert b h.1 (Nat.zero_le a), fun c hc => ?_⟩
    rcases Memory.mem_insert hc with rfl | hc
    · exact ⟨ha, hb⟩
    · exact h.2 c hc

/-- Writes in a row inside the address space keep the canonical form. -/
theorem Memory.wf_writeBytes (bs : List Byte) {m : Memory} {a : Nat} (h : Memory.wf font m = true)
    (ha : a + bs.length ≤ Config.memSize) : Memory.wf font (Memory.writeBytes font m a bs) = true := by
  induction bs generalizing m a with
  | nil => exact h
  | cons b bs ih =>
    rw [List.length_cons] at ha
    exact ih (Memory.wf_write b h (by omega)) (by omega)

/-! ### The state's view -/

/-- What `State.writeBytes` leaves at every address (R44). -/
theorem State.readByte_writeBytes (s : State) (a p : Nat) (bs : List Byte) :
    (s.writeBytes a bs).readByte p =
      if h : a ≤ p ∧ p - a < bs.length then bs[p - a]'h.2 else s.readByte p :=
  Memory.read_writeBytes bs s.mem a p

@[simp] theorem State.length_readBytes (s : State) (a n : Nat) : (s.readBytes a n).length = n := by
  simp [State.readBytes]

@[simp] theorem State.getElem_readBytes (s : State) (a n j : Nat) (h : j < (s.readBytes a n).length) :
    (s.readBytes a n)[j] = s.readByte (a + j) := by
  simp [State.readBytes]

/-- When n bytes at a lie inside MEM (R43, R48). -/
theorem inBounds_iff (a n : Nat) : inBounds a n = true ↔ n = 0 ∨ a + n ≤ 0x1000 := by
  simp [inBounds]

end Sys2Proof.Machine
end

