-- ==== Sys2Proof/Laws/State.lean ====
section
/-! SUPPORT. One lemma per field per update of the state, each true by definition, so that no proof unfolds a record
update; and what each update leaves of the reads made of several fields. -/

namespace Sys2Proof.Machine

variable (s : State)

/-! ### setReg -/

@[simp] theorem State.v_setReg (x : Reg) (b : Byte) : (s.setReg x b).v = s.v.set x.val b := rfl
@[simp] theorem State.i_setReg (x : Reg) (b : Byte) : (s.setReg x b).i = s.i := rfl
@[simp] theorem State.pc_setReg (x : Reg) (b : Byte) : (s.setReg x b).pc = s.pc := rfl
@[simp] theorem State.stk_setReg (x : Reg) (b : Byte) : (s.setReg x b).stk = s.stk := rfl
@[simp] theorem State.sp_setReg (x : Reg) (b : Byte) : (s.setReg x b).sp = s.sp := rfl
@[simp] theorem State.dt_setReg (x : Reg) (b : Byte) : (s.setReg x b).dt = s.dt := rfl
@[simp] theorem State.k_setReg (x : Reg) (b : Byte) : (s.setReg x b).k = s.k := rfl
@[simp] theorem State.fb_setReg (x : Reg) (b : Byte) : (s.setReg x b).fb = s.fb := rfl
@[simp] theorem State.mem_setReg (x : Reg) (b : Byte) : (s.setReg x b).mem = s.mem := rfl
@[simp] theorem State.fault_setReg (x : Reg) (b : Byte) : (s.setReg x b).fault = s.fault := rfl
@[simp] theorem State.boot_setReg (x : Reg) (b : Byte) : (s.setReg x b).boot = s.boot := rfl
@[simp] theorem State.font_setReg (x : Reg) (b : Byte) : (s.setReg x b).font = s.font := rfl
@[simp] theorem State.host_setReg (x : Reg) (b : Byte) : (s.setReg x b).host = s.host := rfl
@[simp] theorem State.cycle_setReg (x : Reg) (b : Byte) : (s.setReg x b).cycle = s.cycle := rfl
@[simp] theorem State.flushed_setReg (x : Reg) (b : Byte) : (s.setReg x b).flushed = s.flushed := rfl
@[simp] theorem State.readByte_setReg (x : Reg) (b : Byte) (p : Nat) : (s.setReg x b).readByte p = s.readByte p := rfl
@[simp] theorem State.halted_setReg (x : Reg) (b : Byte) : (s.setReg x b).halted = s.halted := rfl
@[simp] theorem State.input_setReg (x : Reg) (b : Byte) : (s.setReg x b).input = s.input := rfl

/-! ### setFlag -/

@[simp] theorem State.v_setFlag (c : Bool) : (s.setFlag c).v = s.v.set 15 (flagByte c) := rfl
@[simp] theorem State.i_setFlag (c : Bool) : (s.setFlag c).i = s.i := rfl
@[simp] theorem State.pc_setFlag (c : Bool) : (s.setFlag c).pc = s.pc := rfl
@[simp] theorem State.stk_setFlag (c : Bool) : (s.setFlag c).stk = s.stk := rfl
@[simp] theorem State.sp_setFlag (c : Bool) : (s.setFlag c).sp = s.sp := rfl
@[simp] theorem State.dt_setFlag (c : Bool) : (s.setFlag c).dt = s.dt := rfl
@[simp] theorem State.k_setFlag (c : Bool) : (s.setFlag c).k = s.k := rfl
@[simp] theorem State.fb_setFlag (c : Bool) : (s.setFlag c).fb = s.fb := rfl
@[simp] theorem State.mem_setFlag (c : Bool) : (s.setFlag c).mem = s.mem := rfl
@[simp] theorem State.fault_setFlag (c : Bool) : (s.setFlag c).fault = s.fault := rfl
@[simp] theorem State.boot_setFlag (c : Bool) : (s.setFlag c).boot = s.boot := rfl
@[simp] theorem State.font_setFlag (c : Bool) : (s.setFlag c).font = s.font := rfl
@[simp] theorem State.host_setFlag (c : Bool) : (s.setFlag c).host = s.host := rfl
@[simp] theorem State.cycle_setFlag (c : Bool) : (s.setFlag c).cycle = s.cycle := rfl
@[simp] theorem State.flushed_setFlag (c : Bool) : (s.setFlag c).flushed = s.flushed := rfl
@[simp] theorem State.readByte_setFlag (c : Bool) (p : Nat) : (s.setFlag c).readByte p = s.readByte p := rfl
@[simp] theorem State.halted_setFlag (c : Bool) : (s.setFlag c).halted = s.halted := rfl
@[simp] theorem State.input_setFlag (c : Bool) : (s.setFlag c).input = s.input := rfl

/-! ### setI -/

@[simp] theorem State.v_setI (w : Word) : (s.setI w).v = s.v := rfl
@[simp] theorem State.i_setI (w : Word) : (s.setI w).i = w := rfl
@[simp] theorem State.pc_setI (w : Word) : (s.setI w).pc = s.pc := rfl
@[simp] theorem State.stk_setI (w : Word) : (s.setI w).stk = s.stk := rfl
@[simp] theorem State.sp_setI (w : Word) : (s.setI w).sp = s.sp := rfl
@[simp] theorem State.dt_setI (w : Word) : (s.setI w).dt = s.dt := rfl
@[simp] theorem State.k_setI (w : Word) : (s.setI w).k = s.k := rfl
@[simp] theorem State.fb_setI (w : Word) : (s.setI w).fb = s.fb := rfl
@[simp] theorem State.mem_setI (w : Word) : (s.setI w).mem = s.mem := rfl
@[simp] theorem State.fault_setI (w : Word) : (s.setI w).fault = s.fault := rfl
@[simp] theorem State.boot_setI (w : Word) : (s.setI w).boot = s.boot := rfl
@[simp] theorem State.font_setI (w : Word) : (s.setI w).font = s.font := rfl
@[simp] theorem State.host_setI (w : Word) : (s.setI w).host = s.host := rfl
@[simp] theorem State.cycle_setI (w : Word) : (s.setI w).cycle = s.cycle := rfl
@[simp] theorem State.flushed_setI (w : Word) : (s.setI w).flushed = s.flushed := rfl
@[simp] theorem State.readByte_setI (w : Word) (p : Nat) : (s.setI w).readByte p = s.readByte p := rfl
@[simp] theorem State.reg_setI (w : Word) (r : Reg) : (s.setI w).reg r = s.reg r := rfl
@[simp] theorem State.halted_setI (w : Word) : (s.setI w).halted = s.halted := rfl
@[simp] theorem State.input_setI (w : Word) : (s.setI w).input = s.input := rfl

/-! ### setDt -/

@[simp] theorem State.v_setDt (b : Byte) : (s.setDt b).v = s.v := rfl
@[simp] theorem State.i_setDt (b : Byte) : (s.setDt b).i = s.i := rfl
@[simp] theorem State.pc_setDt (b : Byte) : (s.setDt b).pc = s.pc := rfl
@[simp] theorem State.stk_setDt (b : Byte) : (s.setDt b).stk = s.stk := rfl
@[simp] theorem State.sp_setDt (b : Byte) : (s.setDt b).sp = s.sp := rfl
@[simp] theorem State.dt_setDt (b : Byte) : (s.setDt b).dt = b := rfl
@[simp] theorem State.k_setDt (b : Byte) : (s.setDt b).k = s.k := rfl
@[simp] theorem State.fb_setDt (b : Byte) : (s.setDt b).fb = s.fb := rfl
@[simp] theorem State.mem_setDt (b : Byte) : (s.setDt b).mem = s.mem := rfl
@[simp] theorem State.fault_setDt (b : Byte) : (s.setDt b).fault = s.fault := rfl
@[simp] theorem State.boot_setDt (b : Byte) : (s.setDt b).boot = s.boot := rfl
@[simp] theorem State.font_setDt (b : Byte) : (s.setDt b).font = s.font := rfl
@[simp] theorem State.host_setDt (b : Byte) : (s.setDt b).host = s.host := rfl
@[simp] theorem State.cycle_setDt (b : Byte) : (s.setDt b).cycle = s.cycle := rfl
@[simp] theorem State.flushed_setDt (b : Byte) : (s.setDt b).flushed = s.flushed := rfl
@[simp] theorem State.readByte_setDt (b : Byte) (p : Nat) : (s.setDt b).readByte p = s.readByte p := rfl
@[simp] theorem State.reg_setDt (b : Byte) (r : Reg) : (s.setDt b).reg r = s.reg r := rfl
@[simp] theorem State.halted_setDt (b : Byte) : (s.setDt b).halted = s.halted := rfl
@[simp] theorem State.input_setDt (b : Byte) : (s.setDt b).input = s.input := rfl

/-! ### setFb -/

@[simp] theorem State.v_setFb (f : Frame) : (s.setFb f).v = s.v := rfl
@[simp] theorem State.i_setFb (f : Frame) : (s.setFb f).i = s.i := rfl
@[simp] theorem State.pc_setFb (f : Frame) : (s.setFb f).pc = s.pc := rfl
@[simp] theorem State.stk_setFb (f : Frame) : (s.setFb f).stk = s.stk := rfl
@[simp] theorem State.sp_setFb (f : Frame) : (s.setFb f).sp = s.sp := rfl
@[simp] theorem State.dt_setFb (f : Frame) : (s.setFb f).dt = s.dt := rfl
@[simp] theorem State.k_setFb (f : Frame) : (s.setFb f).k = s.k := rfl
@[simp] theorem State.fb_setFb (f : Frame) : (s.setFb f).fb = f := rfl
@[simp] theorem State.mem_setFb (f : Frame) : (s.setFb f).mem = s.mem := rfl
@[simp] theorem State.fault_setFb (f : Frame) : (s.setFb f).fault = s.fault := rfl
@[simp] theorem State.boot_setFb (f : Frame) : (s.setFb f).boot = s.boot := rfl
@[simp] theorem State.font_setFb (f : Frame) : (s.setFb f).font = s.font := rfl
@[simp] theorem State.host_setFb (f : Frame) : (s.setFb f).host = s.host := rfl
@[simp] theorem State.cycle_setFb (f : Frame) : (s.setFb f).cycle = s.cycle := rfl
@[simp] theorem State.flushed_setFb (f : Frame) : (s.setFb f).flushed = s.flushed := rfl
@[simp] theorem State.readByte_setFb (f : Frame) (p : Nat) : (s.setFb f).readByte p = s.readByte p := rfl
@[simp] theorem State.reg_setFb (f : Frame) (r : Reg) : (s.setFb f).reg r = s.reg r := rfl
@[simp] theorem State.halted_setFb (f : Frame) : (s.setFb f).halted = s.halted := rfl
@[simp] theorem State.input_setFb (f : Frame) : (s.setFb f).input = s.input := rfl

/-! ### jump -/

@[simp] theorem State.v_jump (w : Word) : (s.jump w).v = s.v := rfl
@[simp] theorem State.i_jump (w : Word) : (s.jump w).i = s.i := rfl
@[simp] theorem State.pc_jump (w : Word) : (s.jump w).pc = w := rfl
@[simp] theorem State.stk_jump (w : Word) : (s.jump w).stk = s.stk := rfl
@[simp] theorem State.sp_jump (w : Word) : (s.jump w).sp = s.sp := rfl
@[simp] theorem State.dt_jump (w : Word) : (s.jump w).dt = s.dt := rfl
@[simp] theorem State.k_jump (w : Word) : (s.jump w).k = s.k := rfl
@[simp] theorem State.fb_jump (w : Word) : (s.jump w).fb = s.fb := rfl
@[simp] theorem State.mem_jump (w : Word) : (s.jump w).mem = s.mem := rfl
@[simp] theorem State.fault_jump (w : Word) : (s.jump w).fault = s.fault := rfl
@[simp] theorem State.boot_jump (w : Word) : (s.jump w).boot = s.boot := rfl
@[simp] theorem State.font_jump (w : Word) : (s.jump w).font = s.font := rfl
@[simp] theorem State.host_jump (w : Word) : (s.jump w).host = s.host := rfl
@[simp] theorem State.cycle_jump (w : Word) : (s.jump w).cycle = s.cycle := rfl
@[simp] theorem State.flushed_jump (w : Word) : (s.jump w).flushed = s.flushed := rfl
@[simp] theorem State.readByte_jump (w : Word) (p : Nat) : (s.jump w).readByte p = s.readByte p := rfl
@[simp] theorem State.reg_jump (w : Word) (r : Reg) : (s.jump w).reg r = s.reg r := rfl
@[simp] theorem State.halted_jump (w : Word) : (s.jump w).halted = s.halted := rfl
@[simp] theorem State.input_jump (w : Word) : (s.jump w).input = s.input := rfl

/-! ### advance -/

@[simp] theorem State.v_advance : (s.advance).v = s.v := rfl
@[simp] theorem State.i_advance : (s.advance).i = s.i := rfl
@[simp] theorem State.pc_advance : (s.advance).pc = s.pc + 2 := rfl
@[simp] theorem State.stk_advance : (s.advance).stk = s.stk := rfl
@[simp] theorem State.sp_advance : (s.advance).sp = s.sp := rfl
@[simp] theorem State.dt_advance : (s.advance).dt = s.dt := rfl
@[simp] theorem State.k_advance : (s.advance).k = s.k := rfl
@[simp] theorem State.fb_advance : (s.advance).fb = s.fb := rfl
@[simp] theorem State.mem_advance : (s.advance).mem = s.mem := rfl
@[simp] theorem State.fault_advance : (s.advance).fault = s.fault := rfl
@[simp] theorem State.boot_advance : (s.advance).boot = s.boot := rfl
@[simp] theorem State.font_advance : (s.advance).font = s.font := rfl
@[simp] theorem State.host_advance : (s.advance).host = s.host := rfl
@[simp] theorem State.cycle_advance : (s.advance).cycle = s.cycle := rfl
@[simp] theorem State.flushed_advance : (s.advance).flushed = s.flushed := rfl
@[simp] theorem State.readByte_advance (p : Nat) : (s.advance).readByte p = s.readByte p := rfl
@[simp] theorem State.reg_advance (r : Reg) : (s.advance).reg r = s.reg r := rfl
@[simp] theorem State.halted_advance : (s.advance).halted = s.halted := rfl
@[simp] theorem State.input_advance : (s.advance).input = s.input := rfl

/-! ### skipIf -/

@[simp] theorem State.v_skipIf (c : Bool) : (s.skipIf c).v = s.v := rfl
@[simp] theorem State.i_skipIf (c : Bool) : (s.skipIf c).i = s.i := rfl
@[simp] theorem State.pc_skipIf (c : Bool) : (s.skipIf c).pc = if c then s.pc + 4 else s.pc + 2 := rfl
@[simp] theorem State.stk_skipIf (c : Bool) : (s.skipIf c).stk = s.stk := rfl
@[simp] theorem State.sp_skipIf (c : Bool) : (s.skipIf c).sp = s.sp := rfl
@[simp] theorem State.dt_skipIf (c : Bool) : (s.skipIf c).dt = s.dt := rfl
@[simp] theorem State.k_skipIf (c : Bool) : (s.skipIf c).k = s.k := rfl
@[simp] theorem State.fb_skipIf (c : Bool) : (s.skipIf c).fb = s.fb := rfl
@[simp] theorem State.mem_skipIf (c : Bool) : (s.skipIf c).mem = s.mem := rfl
@[simp] theorem State.fault_skipIf (c : Bool) : (s.skipIf c).fault = s.fault := rfl
@[simp] theorem State.boot_skipIf (c : Bool) : (s.skipIf c).boot = s.boot := rfl
@[simp] theorem State.font_skipIf (c : Bool) : (s.skipIf c).font = s.font := rfl
@[simp] theorem State.host_skipIf (c : Bool) : (s.skipIf c).host = s.host := rfl
@[simp] theorem State.cycle_skipIf (c : Bool) : (s.skipIf c).cycle = s.cycle := rfl
@[simp] theorem State.flushed_skipIf (c : Bool) : (s.skipIf c).flushed = s.flushed := rfl
@[simp] theorem State.readByte_skipIf (c : Bool) (p : Nat) : (s.skipIf c).readByte p = s.readByte p := rfl
@[simp] theorem State.reg_skipIf (c : Bool) (r : Reg) : (s.skipIf c).reg r = s.reg r := rfl
@[simp] theorem State.halted_skipIf (c : Bool) : (s.skipIf c).halted = s.halted := rfl
@[simp] theorem State.input_skipIf (c : Bool) : (s.skipIf c).input = s.input := rfl

/-! ### writeBytes -/

@[simp] theorem State.v_writeBytes (a : Nat) (bs : List Byte) : (s.writeBytes a bs).v = s.v := rfl
@[simp] theorem State.i_writeBytes (a : Nat) (bs : List Byte) : (s.writeBytes a bs).i = s.i := rfl
@[simp] theorem State.pc_writeBytes (a : Nat) (bs : List Byte) : (s.writeBytes a bs).pc = s.pc := rfl
@[simp] theorem State.stk_writeBytes (a : Nat) (bs : List Byte) : (s.writeBytes a bs).stk = s.stk := rfl
@[simp] theorem State.sp_writeBytes (a : Nat) (bs : List Byte) : (s.writeBytes a bs).sp = s.sp := rfl
@[simp] theorem State.dt_writeBytes (a : Nat) (bs : List Byte) : (s.writeBytes a bs).dt = s.dt := rfl
@[simp] theorem State.k_writeBytes (a : Nat) (bs : List Byte) : (s.writeBytes a bs).k = s.k := rfl
@[simp] theorem State.fb_writeBytes (a : Nat) (bs : List Byte) : (s.writeBytes a bs).fb = s.fb := rfl
@[simp] theorem State.mem_writeBytes (a : Nat) (bs : List Byte) : (s.writeBytes a bs).mem = Memory.writeBytes s.font s.mem a bs := rfl
@[simp] theorem State.fault_writeBytes (a : Nat) (bs : List Byte) : (s.writeBytes a bs).fault = s.fault := rfl
@[simp] theorem State.boot_writeBytes (a : Nat) (bs : List Byte) : (s.writeBytes a bs).boot = s.boot := rfl
@[simp] theorem State.font_writeBytes (a : Nat) (bs : List Byte) : (s.writeBytes a bs).font = s.font := rfl
@[simp] theorem State.host_writeBytes (a : Nat) (bs : List Byte) : (s.writeBytes a bs).host = s.host := rfl
@[simp] theorem State.cycle_writeBytes (a : Nat) (bs : List Byte) : (s.writeBytes a bs).cycle = s.cycle := rfl
@[simp] theorem State.flushed_writeBytes (a : Nat) (bs : List Byte) : (s.writeBytes a bs).flushed = s.flushed := rfl
@[simp] theorem State.reg_writeBytes (a : Nat) (bs : List Byte) (r : Reg) : (s.writeBytes a bs).reg r = s.reg r := rfl
@[simp] theorem State.halted_writeBytes (a : Nat) (bs : List Byte) : (s.writeBytes a bs).halted = s.halted := rfl
@[simp] theorem State.input_writeBytes (a : Nat) (bs : List Byte) : (s.writeBytes a bs).input = s.input := rfl

/-! ### popEvent -/

@[simp] theorem State.v_popEvent : (s.popEvent).v = s.v := rfl
@[simp] theorem State.i_popEvent : (s.popEvent).i = s.i := rfl
@[simp] theorem State.pc_popEvent : (s.popEvent).pc = s.pc := rfl
@[simp] theorem State.stk_popEvent : (s.popEvent).stk = s.stk := rfl
@[simp] theorem State.sp_popEvent : (s.popEvent).sp = s.sp := rfl
@[simp] theorem State.dt_popEvent : (s.popEvent).dt = s.dt := rfl
@[simp] theorem State.k_popEvent : (s.popEvent).k = s.k := rfl
@[simp] theorem State.fb_popEvent : (s.popEvent).fb = s.fb := rfl
@[simp] theorem State.mem_popEvent : (s.popEvent).mem = s.mem := rfl
@[simp] theorem State.fault_popEvent : (s.popEvent).fault = s.fault := rfl
@[simp] theorem State.boot_popEvent : (s.popEvent).boot = s.boot := rfl
@[simp] theorem State.font_popEvent : (s.popEvent).font = s.font := rfl
@[simp] theorem State.host_popEvent : (s.popEvent).host = s.host.tail := rfl
@[simp] theorem State.cycle_popEvent : (s.popEvent).cycle = s.cycle := rfl
@[simp] theorem State.flushed_popEvent : (s.popEvent).flushed = s.flushed := rfl
@[simp] theorem State.readByte_popEvent (p : Nat) : (s.popEvent).readByte p = s.readByte p := rfl
@[simp] theorem State.reg_popEvent (r : Reg) : (s.popEvent).reg r = s.reg r := rfl
@[simp] theorem State.halted_popEvent : (s.popEvent).halted = s.halted := rfl

/-! ### endCycle -/

@[simp] theorem State.v_endCycle : (s.endCycle).v = s.v := rfl
@[simp] theorem State.i_endCycle : (s.endCycle).i = s.i := rfl
@[simp] theorem State.pc_endCycle : (s.endCycle).pc = s.pc := rfl
@[simp] theorem State.stk_endCycle : (s.endCycle).stk = s.stk := rfl
@[simp] theorem State.sp_endCycle : (s.endCycle).sp = s.sp := rfl
@[simp] theorem State.dt_endCycle : (s.endCycle).dt = s.dt := rfl
@[simp] theorem State.k_endCycle : (s.endCycle).k = s.k := rfl
@[simp] theorem State.fb_endCycle : (s.endCycle).fb = s.fb := rfl
@[simp] theorem State.mem_endCycle : (s.endCycle).mem = s.mem := rfl
@[simp] theorem State.fault_endCycle : (s.endCycle).fault = s.fault := rfl
@[simp] theorem State.boot_endCycle : (s.endCycle).boot = .started := rfl
@[simp] theorem State.font_endCycle : (s.endCycle).font = s.font := rfl
@[simp] theorem State.host_endCycle : (s.endCycle).host = s.host.tail := rfl
@[simp] theorem State.cycle_endCycle : (s.endCycle).cycle = s.cycle + 1 := rfl
@[simp] theorem State.flushed_endCycle : (s.endCycle).flushed = s.flushed := rfl
@[simp] theorem State.readByte_endCycle (p : Nat) : (s.endCycle).readByte p = s.readByte p := rfl
@[simp] theorem State.reg_endCycle (r : Reg) : (s.endCycle).reg r = s.reg r := rfl
@[simp] theorem State.halted_endCycle : (s.endCycle).halted = s.halted := rfl

/-! ### tickPhase -/

@[simp] theorem State.v_tickPhase (c : Bool) : (s.tickPhase c).v = s.v := rfl
@[simp] theorem State.i_tickPhase (c : Bool) : (s.tickPhase c).i = s.i := rfl
@[simp] theorem State.pc_tickPhase (c : Bool) : (s.tickPhase c).pc = s.pc := rfl
@[simp] theorem State.stk_tickPhase (c : Bool) : (s.tickPhase c).stk = s.stk := rfl
@[simp] theorem State.sp_tickPhase (c : Bool) : (s.tickPhase c).sp = s.sp := rfl
@[simp] theorem State.dt_tickPhase (c : Bool) : (s.tickPhase c).dt = if s.dt != 0 && c then s.dt - 1 else s.dt := rfl
@[simp] theorem State.k_tickPhase (c : Bool) : (s.tickPhase c).k = s.k := rfl
@[simp] theorem State.fb_tickPhase (c : Bool) : (s.tickPhase c).fb = s.fb := rfl
@[simp] theorem State.mem_tickPhase (c : Bool) : (s.tickPhase c).mem = s.mem := rfl
@[simp] theorem State.fault_tickPhase (c : Bool) : (s.tickPhase c).fault = s.fault := rfl
@[simp] theorem State.boot_tickPhase (c : Bool) : (s.tickPhase c).boot = s.boot := rfl
@[simp] theorem State.font_tickPhase (c : Bool) : (s.tickPhase c).font = s.font := rfl
@[simp] theorem State.host_tickPhase (c : Bool) : (s.tickPhase c).host = s.host := rfl
@[simp] theorem State.cycle_tickPhase (c : Bool) : (s.tickPhase c).cycle = s.cycle := rfl
@[simp] theorem State.flushed_tickPhase (c : Bool) : (s.tickPhase c).flushed = if c then s.fb :: s.flushed else s.flushed := rfl
@[simp] theorem State.readByte_tickPhase (c : Bool) (p : Nat) : (s.tickPhase c).readByte p = s.readByte p := rfl
@[simp] theorem State.reg_tickPhase (c : Bool) (r : Reg) : (s.tickPhase c).reg r = s.reg r := rfl
@[simp] theorem State.halted_tickPhase (c : Bool) : (s.tickPhase c).halted = s.halted := rfl
@[simp] theorem State.input_tickPhase (c : Bool) : (s.tickPhase c).input = s.input := rfl

/-! ### keyPhase -/

@[simp] theorem State.v_keyPhase (es : List (Fin 16 × Bool)) : (s.keyPhase es).v = s.v := rfl
@[simp] theorem State.i_keyPhase (es : List (Fin 16 × Bool)) : (s.keyPhase es).i = s.i := rfl
@[simp] theorem State.pc_keyPhase (es : List (Fin 16 × Bool)) : (s.keyPhase es).pc = s.pc := rfl
@[simp] theorem State.stk_keyPhase (es : List (Fin 16 × Bool)) : (s.keyPhase es).stk = s.stk := rfl
@[simp] theorem State.sp_keyPhase (es : List (Fin 16 × Bool)) : (s.keyPhase es).sp = s.sp := rfl
@[simp] theorem State.dt_keyPhase (es : List (Fin 16 × Bool)) : (s.keyPhase es).dt = s.dt := rfl
@[simp] theorem State.k_keyPhase (es : List (Fin 16 × Bool)) : (s.keyPhase es).k = applyKeys s.k es := rfl
@[simp] theorem State.fb_keyPhase (es : List (Fin 16 × Bool)) : (s.keyPhase es).fb = s.fb := rfl
@[simp] theorem State.mem_keyPhase (es : List (Fin 16 × Bool)) : (s.keyPhase es).mem = s.mem := rfl
@[simp] theorem State.fault_keyPhase (es : List (Fin 16 × Bool)) : (s.keyPhase es).fault = s.fault := rfl
@[simp] theorem State.boot_keyPhase (es : List (Fin 16 × Bool)) : (s.keyPhase es).boot = s.boot := rfl
@[simp] theorem State.font_keyPhase (es : List (Fin 16 × Bool)) : (s.keyPhase es).font = s.font := rfl
@[simp] theorem State.host_keyPhase (es : List (Fin 16 × Bool)) : (s.keyPhase es).host = s.host := rfl
@[simp] theorem State.cycle_keyPhase (es : List (Fin 16 × Bool)) : (s.keyPhase es).cycle = s.cycle := rfl
@[simp] theorem State.flushed_keyPhase (es : List (Fin 16 × Bool)) : (s.keyPhase es).flushed = s.flushed := rfl
@[simp] theorem State.readByte_keyPhase (es : List (Fin 16 × Bool)) (p : Nat) : (s.keyPhase es).readByte p = s.readByte p := rfl
@[simp] theorem State.reg_keyPhase (es : List (Fin 16 × Bool)) (r : Reg) : (s.keyPhase es).reg r = s.reg r := rfl
@[simp] theorem State.halted_keyPhase (es : List (Fin 16 × Bool)) : (s.keyPhase es).halted = s.halted := rfl
@[simp] theorem State.input_keyPhase (es : List (Fin 16 × Bool)) : (s.keyPhase es).input = s.input := rfl

/-! ### Registers -/

/-- A written register reads as the byte written, and every other one as before (R20). -/
theorem State.reg_setReg (x r : Reg) (b : Byte) : (s.setReg x b).reg r = if r = x then b else s.reg r := by
  unfold State.reg State.setReg
  by_cases h : r = x
  · subst h; simp
  · have : x.val ≠ r.val := fun e => h (Fin.ext e.symm)
    simp [h, Vector.getElem_set_ne, this]

@[simp] theorem State.reg_setReg_self (x : Reg) (b : Byte) : (s.setReg x b).reg x = b := by
  simp [State.reg_setReg]

theorem State.reg_setReg_ne (x r : Reg) (b : Byte) (h : r ≠ x) : (s.setReg x b).reg r = s.reg r := by
  simp [State.reg_setReg, h]

/-- A flag is written to VF and nowhere else (R21). -/
theorem State.reg_setFlag (r : Reg) (c : Bool) :
    (s.setFlag c).reg r = if r = 15 then flagByte c else s.reg r := State.reg_setReg s 15 r (flagByte c)

/-! ### Reset -/

/-- Reset lists nothing, which is canonical. -/
theorem State.reset_memory_wf : Memory.wf State.reset.font State.reset.mem = true := rfl

theorem State.reg_afterReset (font : Vector Byte Config.fontSize) (h : List HostEvent) (c : Nat) (f : List Frame)
    (r : Reg) : (State.afterReset font h c f).reg r = 0 := by
  simp [State.reg, State.afterReset]

theorem State.readByte_afterReset (font : Vector Byte Config.fontSize) (h : List HostEvent) (c : Nat)
    (f : List Frame) (a : Nat) : (State.afterReset font h c f).readByte a = unlisted font a := rfl

end Sys2Proof.Machine
end

