-- ==== Sys2Proof/Laws/Ops.lean ====
section
/-! SUPPORT. One lemma for each shared operation, saying all that it can do. -/

namespace Sys2Proof.Machine

variable (s : State)

/-! ### The stack (10_state.md R25) -/

theorem State.push_of_lt (w : Word) (h : s.sp.val < 16) :
    s.push w = some { s with stk := s.stk.set s.sp.val w h, sp := ⟨s.sp.val + 1, Nat.succ_lt_succ h⟩ } := by
  simp [State.push, h]

theorem State.push_full (w : Word) (h : s.sp.val = 16) : s.push w = none := by
  simp [State.push, h]

theorem State.pop_of_pos (h : 0 < s.sp.val) :
    s.pop = some (s.stk[s.sp.val - 1]'(by have := s.sp.isLt; omega),
      { s with sp := ⟨s.sp.val - 1, by have := s.sp.isLt; omega⟩ }) := by
  simp [State.pop, h]

theorem State.pop_empty (h : s.sp.val = 0) : s.pop = none := by
  simp [State.pop, h]

/-! ### Register ranges (42_memory.md R119, R120) -/

theorem mem_regsUpTo (x r : Reg) : r ∈ regsUpTo x ↔ r ≤ x := by
  revert x r; decide

@[simp] theorem length_regsUpTo (x : Reg) : (regsUpTo x).length = x.val + 1 := by
  revert x; decide

theorem getElem_regsUpTo (x : Reg) (j : Nat) (h : j < (regsUpTo x).length) :
    ((regsUpTo x)[j]).val = j := by
  have key : ∀ (x r : Reg), r ≤ x → ((regsUpTo x)[r.val]?.map Fin.val) = some r.val := by decide
  rw [length_regsUpTo] at h
  have h16 : j < 16 := by omega
  have := key x ⟨j, h16⟩ (by rw [Fin.le_def]; simp only; omega)
  simpa [List.getElem?_eq_getElem (by rw [length_regsUpTo]; exact h : j < (regsUpTo x).length)] using this

@[simp] theorem State.length_storedRegs (x : Reg) : (s.storedRegs x).length = x.val + 1 := by
  simp [State.storedRegs]

/-- The j-th byte of Fx55 is V[j]. -/
theorem State.getElem_storedRegs (x : Reg) (j : Nat) (h : j < (s.storedRegs x).length) (h16 : j < 16) :
    (s.storedRegs x)[j] = s.reg ⟨j, h16⟩ := by
  simp only [State.storedRegs, List.getElem_map]
  congr 1
  exact Fin.ext (getElem_regsUpTo x j _)

/-- Loading registers in turn, from the memory of the state before. -/
theorem State.reg_foldl_load (a : Nat) (rs : List Reg) (t : State) (r : Reg) :
    (rs.foldl (fun t q => t.setReg q (s.readByte (a + q.val))) t).reg r =
      if r ∈ rs then s.readByte (a + r.val) else t.reg r := by
  induction rs generalizing t with
  | nil => simp
  | cons q rs ih =>
    rw [List.foldl_cons, ih, State.reg_setReg]
    by_cases hm : r ∈ rs
    · simp [hm]
    · by_cases hq : r = q
      · subst hq; simp
      · simp [hm, hq]

/-- Fx65: V0 to Vx hold the bytes at a, the registers above x are as before (R120). -/
theorem State.reg_loadRegs (a : Nat) (x r : Reg) :
    (s.loadRegs a (regsUpTo x)).reg r = if r ≤ x then s.readByte (a + r.val) else s.reg r := by
  unfold State.loadRegs
  rw [State.reg_foldl_load]
  simp only [mem_regsUpTo]

/-- Loading registers changes the registers alone. -/
theorem State.loadRegs_eq (a : Nat) (rs : List Reg) :
    s.loadRegs a rs = { s with v := (s.loadRegs a rs).v } := by
  have key : ∀ (rs : List Reg) (t : State), t = { s with v := t.v } →
      rs.foldl (fun t q => t.setReg q (s.readByte (a + q.val))) t =
        { s with v := (rs.foldl (fun t q => t.setReg q (s.readByte (a + q.val))) t).v } := by
    intro rs
    induction rs with
    | nil => intro t ht; exact ht
    | cons q rs ih =>
      intro t ht
      rw [List.foldl_cons]
      exact ih _ (by rw [ht]; rfl)
  exact key rs s rfl

/-! ### Taking a fault (60_exceptions.md R151) -/

/-- The bound of a range at I, and both of its outcomes (20_memory.md R50). -/
theorem ifInBounds_of_le (c : Cause) (n : Nat) (op : Word) (t : State) (h : n = 0 ∨ s.i.toNat + n ≤ 0x1000) :
    ifInBounds c n op s t = .next t := by
  simp [ifInBounds, (inBounds_iff _ _).2 h]

theorem ifInBounds_of_gt (c : Cause) (n : Nat) (op : Word) (t : State) (hn : 0 < n)
    (h : 0x1000 < s.i.toNat + n) :
    ifInBounds c n op s t = .next { s with fault := ⟨c, s.pc, op, lowestBeyond s.i⟩ } := by
  have : inBounds s.i.toNat n = false := by
    rw [Bool.eq_false_iff, Ne, inBounds_iff]; omega
  simp [ifInBounds, this, raise]

/-- What `ifInBounds` answers, in one statement. -/
theorem ifInBounds_cases (c : Cause) (n : Nat) (op : Word) (t u : State)
    (h : ifInBounds c n op s t = .next u) :
    ((n = 0 ∨ s.i.toNat + n ≤ 0x1000) ∧ u = t) ∨
      (0 < n ∧ 0x1000 < s.i.toNat + n ∧ u = { s with fault := ⟨c, s.pc, op, lowestBeyond s.i⟩ }) := by
  by_cases hb : n = 0 ∨ s.i.toNat + n ≤ 0x1000
  · rw [ifInBounds_of_le s c n op t hb] at h
    exact .inl ⟨hb, (Host.Outcome.next.inj h).symm⟩
  · rw [ifInBounds_of_gt s c n op t (by omega) (by omega)] at h
    exact .inr ⟨by omega, by omega, (Host.Outcome.next.inj h).symm⟩

/-! ### Key numbers (44_timer_input.md R142) -/

theorem State.keyIndex_of_lt (x : Reg) (h : (s.reg x).toNat < 16) :
    s.keyIndex x = some ⟨(s.reg x).toNat, h⟩ := by
  simp [State.keyIndex, h]

theorem State.keyIndex_of_gt (x : Reg) (h : 15 < (s.reg x).toNat) : s.keyIndex x = none := by
  have : ¬ (s.reg x).toNat < 16 := by omega
  simp [State.keyIndex, this]

/-! ### Flags (40_arithmetic.md R93) -/

/-- Result, then flag: with x = 0xF only the flag is left. -/
theorem State.reg_resultThenFlag (x r : Reg) (b : Byte) (c : Bool) :
    (s.resultThenFlag x b c).reg r = if r = 15 then flagByte c else if r = x then b else s.reg r := by
  simp [State.resultThenFlag, State.reg_setFlag, State.reg_setReg]

/-- Flag, then shift: with x = 0xF the shifted flag is left. -/
theorem State.reg_flagThenShift (x r : Reg) (c : Bool) (f : Byte → Byte) :
    (s.flagThenShift x c f).reg r =
      if r = x then f (if x = 15 then flagByte c else s.reg x) else if r = 15 then flagByte c else s.reg r := by
  simp [State.flagThenShift, State.reg_setReg, State.reg_setFlag]

/-- Both orders of the two writes change the registers alone. -/
theorem State.resultThenFlag_eq (x : Reg) (b : Byte) (c : Bool) :
    s.resultThenFlag x b c = { s with v := (s.resultThenFlag x b c).v } := rfl

theorem State.flagThenShift_eq (x : Reg) (c : Bool) (f : Byte → Byte) :
    s.flagThenShift x c f = { s with v := (s.flagThenShift x c f).v } := rfl

end Sys2Proof.Machine
end

