-- ==== Sys2Proof/Laws/Blit.lean ====
section
/-! SUPPORT. The blit of 43_display.md R131, pixel by pixel: every pixel is XORed with the one sprite bit that falls
on it, and the collision bit says whether a pixel that was on met a bit that is 1. -/

namespace Sys2Proof.Machine

/-- The sprite column that falls on column x, when it is less than 8. -/
def spriteCol (px : Nat) (x : Fin 64) : Nat := (x.val + 64 - px % 64) % 64

/-- The sprite row that falls on row y, when the sprite has that many rows. -/
def spriteRow (py : Nat) (y : Fin 32) : Nat := (y.val + 32 - py % 32) % 32

/-- The bit of one sprite row that falls on column x. -/
def rowBit (px : Nat) (row : Byte) (x : Fin 64) : Bool :=
  decide (spriteCol px x < 8) && row.getLsbD (7 - spriteCol px x)

/-- The bit of the sprite that falls on the pixel (x, y). -/
def spriteBit (px py : Nat) (rows : List Byte) (x : Fin 64) (y : Fin 32) : Bool :=
  match rows[spriteRow py y]? with
  | some row => rowBit px row x
  | none => false

theorem wrapX_eq_iff (px col : Nat) (x : Fin 64) (h : col < 8) : wrapX px col = x ↔ spriteCol px x = col := by
  have := x.isLt
  simp only [Fin.ext_iff, wrapX, spriteCol, Config.fbWidth]
  omega

theorem wrapY_eq_iff (py j : Nat) (y : Fin 32) (h : j < 32) : wrapY py j = y ↔ spriteRow py y = j := by
  have := y.isLt
  simp only [Fin.ext_iff, wrapY, spriteRow, Config.fbHeight]
  omega

/-- XOR with a bit at one pixel, and nowhere else. -/
theorem Frame.pixel_xorPixel (fb : Frame) (x x' : Fin 64) (y y' : Fin 32) (b : Bool) :
    (fb.xorPixel x y b).pixel x' y' = (fb.pixel x' y' ^^ (decide (x = x' ∧ y = y') && b)) := by
  unfold Frame.xorPixel Frame.pixel
  by_cases hy : y = y'
  · subst hy
    cases b
    · simp
    · simp [Fin.ext_iff, eq_comm]
  · have : y.val ≠ y'.val := fun e => hy (Fin.ext e)
    simp [hy, Vector.getElem_set_ne, this]

/-- A frame is what its pixels are. -/
theorem Frame.ext_pixel {f g : Frame} (h : ∀ x y, f.pixel x y = g.pixel x y) : f = g := by
  apply Vector.ext
  intro j hj
  apply BitVec.eq_of_getLsbD_eq
  intro c hc
  exact h ⟨c, hc⟩ ⟨j, hj⟩

/-- The first `n` columns of one row, `n` at most 8. -/
theorem blitColumns_spec (px py j : Nat) (row : Byte) (acc : Frame × Bool) (n : Nat) (hn : n ≤ 8) :
    (∀ x y, ((List.range n).foldl (blitColumn px py j row) acc).1.pixel x y =
      (acc.1.pixel x y ^^
        (decide (wrapY py j = y) && (decide (spriteCol px x < n) && row.getLsbD (7 - spriteCol px x))))) ∧
    (((List.range n).foldl (blitColumn px py j row) acc).2 = true ↔
      acc.2 = true ∨ ∃ x, acc.1.pixel x (wrapY py j) = true ∧ spriteCol px x < n ∧
        row.getLsbD (7 - spriteCol px x) = true) := by
  induction n with
  | zero => simp
  | succ n ih =>
    obtain ⟨ih1, ih2⟩ := ih (by omega)
    rw [List.range_succ, List.foldl_append, List.foldl_cons, List.foldl_nil]
    generalize (List.range n).foldl (blitColumn px py j row) acc = acc' at ih1 ih2
    have hcol : spriteCol px (wrapX px n) = n := (wrapX_eq_iff px n _ (by omega)).1 rfl
    constructor
    · intro x y
      simp only [blitColumn, Frame.pixel_xorPixel, ih1]
      by_cases hy : wrapY py j = y
      · by_cases hx : wrapX px n = x
        · have hs := (wrapX_eq_iff px n x (by omega)).1 hx
          simp [hy, hx, hs]
        · have hs : spriteCol px x ≠ n := fun e => hx ((wrapX_eq_iff px n x (by omega)).2 e)
          have : (spriteCol px x < n + 1) = (spriteCol px x < n) := by
            apply propext; omega
          simp [hy, hx, this]
      · simp [hy]
    · simp only [blitColumn, Bool.or_eq_true, ih2, ih1, Bool.and_eq_true]
      constructor
      · rintro ((h | ⟨x, h1, h2, h3⟩) | ⟨h1, h2⟩)
        · exact .inl h
        · exact .inr ⟨x, h1, by omega, h3⟩
        · refine .inr ⟨wrapX px n, ?_, by omega, by rw [hcol]; exact h2⟩
          simpa [hcol] using h1
      · rintro (h | ⟨x, h1, h2, h3⟩)
        · exact .inl (.inl h)
        · by_cases hx : spriteCol px x = n
          · have hw := (wrapX_eq_iff px n x (by omega)).2 hx
            refine .inr ⟨?_, by rw [← hx]; exact h3⟩
            rw [hw]; simpa [hx] using h1
          · exact .inl (.inr ⟨x, h1, by omega, h3⟩)

/-- One row. -/
theorem blitRow_spec (px py j : Nat) (row : Byte) (acc : Frame × Bool) :
    (∀ x y, (blitRow px py j row acc).1.pixel x y =
      (acc.1.pixel x y ^^ (decide (wrapY py j = y) && rowBit px row x))) ∧
    ((blitRow px py j row acc).2 = true ↔
      acc.2 = true ∨ ∃ x, acc.1.pixel x (wrapY py j) = true ∧ rowBit px row x = true) := by
  have h := blitColumns_spec px py j row acc 8 (by omega)
  refine ⟨h.1, ?_⟩
  simpa [blitRow, rowBit] using h.2

/-- The rows from j on, at most up to row 31. -/
theorem blitRows_spec (px py : Nat) (rows : List Byte) (j : Nat) (acc : Frame × Bool)
    (hl : j + rows.length ≤ 32) :
    (∀ x y, (blitRows px py j rows acc).1.pixel x y =
      (acc.1.pixel x y ^^ (decide (j ≤ spriteRow py y) &&
        (match rows[spriteRow py y - j]? with | some row => rowBit px row x | none => false)))) ∧
    ((blitRows px py j rows acc).2 = true ↔
      acc.2 = true ∨ ∃ x y, acc.1.pixel x y = true ∧ j ≤ spriteRow py y ∧
        ∃ row, rows[spriteRow py y - j]? = some row ∧ rowBit px row x = true) := by
  induction rows generalizing j acc with
  | nil => simp [blitRows]
  | cons row rows ih =>
    rw [List.length_cons] at hl
    obtain ⟨r1, r2⟩ := blitRow_spec px py j row acc
    obtain ⟨ih1, ih2⟩ := ih (j + 1) (blitRow px py j row acc) (by omega)
    have hw : ∀ y, wrapY py j = y ↔ spriteRow py y = j := fun y => wrapY_eq_iff py j y (by omega)
    have hself : spriteRow py (wrapY py j) = j := (hw _).1 rfl
    constructor
    · intro x y
      rw [blitRows, ih1, r1]
      by_cases he : spriteRow py y = j
      · have : ¬ j + 1 ≤ spriteRow py y := by omega
        simp [(hw y).2 he, he]
      · have hne : wrapY py j ≠ y := fun e => he ((hw y).1 e)
        by_cases hlt : j + 1 ≤ spriteRow py y
        · have e : spriteRow py y - j = (spriteRow py y - (j + 1)) + 1 := by omega
          have hle : j ≤ spriteRow py y := by omega
          simp [hne, hlt, hle, e]
        · have : ¬ j ≤ spriteRow py y := by omega
          simp [hne, hlt, this]
    · rw [blitRows, ih2, r2]
      constructor
      · rintro ((h | ⟨x, h1, h2⟩) | ⟨x, y, h1, h2, row', h3, h4⟩)
        · exact .inl h
        · exact .inr ⟨x, wrapY py j, h1, by omega, row, by simp [hself], h2⟩
        · have hne : wrapY py j ≠ y := fun e => by have := (hw y).1 e; omega
          refine .inr ⟨x, y, by simpa [r1, hne] using h1, by omega, row', ?_, h4⟩
          have e : spriteRow py y - j = (spriteRow py y - (j + 1)) + 1 := by omega
          rw [e]; simpa using h3
      · rintro (h | ⟨x, y, h1, h2, row', h3, h4⟩)
        · exact .inl (.inl h)
        · by_cases he : spriteRow py y = j
          · refine .inl (.inr ⟨x, ?_, ?_⟩)
            · rw [(hw y).2 he]; exact h1
            · simp only [he, Nat.sub_self, List.getElem?_cons_zero, Option.some.injEq] at h3
              rw [h3]; exact h4
          · have hne : wrapY py j ≠ y := fun e => he ((hw y).1 e)
            have e : spriteRow py y - j = (spriteRow py y - (j + 1)) + 1 := by omega
            refine .inr ⟨x, y, by simpa [r1, hne] using h1, by omega, row', ?_, h4⟩
            rw [e] at h3; simpa using h3

/-- Every pixel of a blit is the old pixel XOR the sprite bit that falls on it (R131). -/
theorem blit_pixel (fb : Frame) (px py : Nat) (rows : List Byte) (hl : rows.length ≤ 32) (x : Fin 64)
    (y : Fin 32) : (blit fb px py rows).1.pixel x y = (fb.pixel x y ^^ spriteBit px py rows x y) := by
  simpa [blit, spriteBit] using (blitRows_spec px py rows 0 (fb, false) (by omega)).1 x y

/-- The collision bit of a blit: some pixel went from on to off (R131). -/
theorem blit_collision (fb : Frame) (px py : Nat) (rows : List Byte) (hl : rows.length ≤ 32) :
    (blit fb px py rows).2 = true ↔ ∃ x y, fb.pixel x y = true ∧ spriteBit px py rows x y = true := by
  have h := (blitRows_spec px py rows 0 (fb, false) (by omega)).2
  rw [blit, h]
  simp only [Bool.false_eq_true, false_or, Nat.zero_le, true_and, Nat.sub_zero]
  refine exists_congr fun x => exists_congr fun y => and_congr_right fun _ => ?_
  unfold spriteBit
  cases rows[spriteRow py y]? <;> simp

end Sys2Proof.Machine
end

