-- ==== Sys2Proof/Laws/Decode.lean ====
section
/-! SUPPORT. The fields of a word built from fields, and a word rebuilt from its fields (30_encoding.md R61, R62). -/

namespace Sys2Proof

/-! ### The fields of an encoded word -/

theorem toNat_wordA (f : BitVec 4) (nnn : BitVec 12) : (wordA f nnn).toNat = f.toNat * 4096 + nnn.toNat := by
  rw [wordA, BitVec.toNat_append, ← Nat.shiftLeft_add_eq_or_of_lt nnn.isLt, Nat.shiftLeft_eq]

@[simp] theorem toNat_regBits (r : Reg) : (regBits r).toNat = r.val := by
  have := r.isLt
  simp [regBits]

theorem toNat_wordRI (f : BitVec 4) (x : Reg) (kk : Byte) :
    (wordRI f x kk).toNat = f.toNat * 4096 + x.val * 256 + kk.toNat := by
  rw [wordRI, BitVec.toNat_append, ← Nat.shiftLeft_add_eq_or_of_lt (BitVec.isLt _), BitVec.toNat_append,
    ← Nat.shiftLeft_add_eq_or_of_lt kk.isLt, Nat.shiftLeft_eq, Nat.shiftLeft_eq, toNat_regBits]
  omega

theorem toNat_wordRR (f : BitVec 4) (x y : Reg) (n : BitVec 4) :
    (wordRR f x y n).toNat = f.toNat * 4096 + x.val * 256 + y.val * 16 + n.toNat := by
  rw [wordRR, BitVec.toNat_append, ← Nat.shiftLeft_add_eq_or_of_lt (BitVec.isLt _), BitVec.toNat_append,
    ← Nat.shiftLeft_add_eq_or_of_lt (BitVec.isLt _), BitVec.toNat_append,
    ← Nat.shiftLeft_add_eq_or_of_lt n.isLt, Nat.shiftLeft_eq, Nat.shiftLeft_eq, Nat.shiftLeft_eq,
    toNat_regBits, toNat_regBits]
  omega

theorem toNat_fieldF (w : Word) : (fieldF w).toNat = w.toNat / 4096 := by
  have := w.isLt
  simp only [fieldF, BitVec.extractLsb'_toNat, Nat.shiftRight_eq_div_pow]
  omega

theorem val_fieldX (w : Word) : (fieldX w).val = w.toNat / 256 % 16 := by
  simp only [fieldX, BitVec.val_toFin, BitVec.extractLsb'_toNat, Nat.shiftRight_eq_div_pow]

theorem val_fieldY (w : Word) : (fieldY w).val = w.toNat / 16 % 16 := by
  simp only [fieldY, BitVec.val_toFin, BitVec.extractLsb'_toNat, Nat.shiftRight_eq_div_pow]

theorem toNat_fieldN (w : Word) : (fieldN w).toNat = w.toNat % 16 := by
  simp only [fieldN, BitVec.extractLsb'_toNat, Nat.shiftRight_eq_div_pow]
  norm_num

theorem toNat_fieldKk (w : Word) : (fieldKk w).toNat = w.toNat % 256 := by
  simp only [fieldKk, BitVec.extractLsb'_toNat, Nat.shiftRight_eq_div_pow]
  norm_num

theorem toNat_fieldNnn (w : Word) : (fieldNnn w).toNat = w.toNat % 4096 := by
  simp only [fieldNnn, BitVec.extractLsb'_toNat, Nat.shiftRight_eq_div_pow]
  norm_num

section
variable (f : BitVec 4) (x y : Reg) (n : BitVec 4) (kk : Byte) (nnn : BitVec 12)

@[simp] theorem fieldF_wordA : fieldF (wordA f nnn) = f := by
  have := nnn.isLt
  apply BitVec.eq_of_toNat_eq; rw [toNat_fieldF, toNat_wordA]; omega

@[simp] theorem fieldNnn_wordA : fieldNnn (wordA f nnn) = nnn := by
  have := nnn.isLt
  apply BitVec.eq_of_toNat_eq; rw [toNat_fieldNnn, toNat_wordA]; omega

@[simp] theorem fieldF_wordRI : fieldF (wordRI f x kk) = f := by
  have := kk.isLt; have := x.isLt
  apply BitVec.eq_of_toNat_eq; rw [toNat_fieldF, toNat_wordRI]; omega

@[simp] theorem fieldX_wordRI : fieldX (wordRI f x kk) = x := by
  have := kk.isLt; have := x.isLt
  apply Fin.ext; rw [val_fieldX, toNat_wordRI]; omega

@[simp] theorem fieldKk_wordRI : fieldKk (wordRI f x kk) = kk := by
  have := kk.isLt
  apply BitVec.eq_of_toNat_eq; rw [toNat_fieldKk, toNat_wordRI]; omega

@[simp] theorem fieldF_wordRR : fieldF (wordRR f x y n) = f := by
  have := n.isLt; have := x.isLt; have := y.isLt
  apply BitVec.eq_of_toNat_eq; rw [toNat_fieldF, toNat_wordRR]; omega

@[simp] theorem fieldX_wordRR : fieldX (wordRR f x y n) = x := by
  have := n.isLt; have := x.isLt; have := y.isLt
  apply Fin.ext; rw [val_fieldX, toNat_wordRR]; omega

@[simp] theorem fieldY_wordRR : fieldY (wordRR f x y n) = y := by
  have := n.isLt; have := y.isLt
  apply Fin.ext; rw [val_fieldY, toNat_wordRR]; omega

@[simp] theorem fieldN_wordRR : fieldN (wordRR f x y n) = n := by
  have := n.isLt
  apply BitVec.eq_of_toNat_eq; rw [toNat_fieldN, toNat_wordRR]; omega

end

/-! ### A word from its own fields -/

theorem wordA_fields (w : Word) : wordA (fieldF w) (fieldNnn w) = w := by
  apply BitVec.eq_of_toNat_eq; rw [toNat_wordA, toNat_fieldF, toNat_fieldNnn]; omega

theorem wordRI_fields (w : Word) : wordRI (fieldF w) (fieldX w) (fieldKk w) = w := by
  apply BitVec.eq_of_toNat_eq; rw [toNat_wordRI, toNat_fieldF, val_fieldX, toNat_fieldKk]; omega

theorem wordRR_fields (w : Word) : wordRR (fieldF w) (fieldX w) (fieldY w) (fieldN w) = w := by
  apply BitVec.eq_of_toNat_eq; rw [toNat_wordRR, toNat_fieldF, val_fieldX, val_fieldY, toNat_fieldN]; omega

/-- The bytes of a word, put together again (20_memory.md R46). -/
theorem wordOfBytes_bytes (w : Word) :
    wordOfBytes (BitVec.ofNat 8 (w.toNat / 256)) (BitVec.ofNat 8 (w.toNat % 256)) = w := by
  have := w.isLt
  apply BitVec.eq_of_toNat_eq
  rw [wordOfBytes, BitVec.toNat_append, ← Nat.shiftLeft_add_eq_or_of_lt (BitVec.isLt _), Nat.shiftLeft_eq,
    BitVec.toNat_ofNat, BitVec.toNat_ofNat]
  omega

end Sys2Proof
end

