-- ==== Sys2Proof/Laws/PerInstr.lean ====
section
/-! SUPPORT. Statements for all instructions, one lemma per constructor: a well-formed instruction's word decodes to
it, with every operand (30_encoding.md R64, R65). -/

namespace Sys2Proof.Laws.RoundTrip

/-- Decoding the word of a well-formed instruction gives it back. -/
def Statement (i : Instr) : Prop := i.wellFormed = true → decodeWord (encode i) = i

theorem cls : Statement (.cls) :=
  fun _ => by simp [encode, decodeWord, decode0]

theorem ret : Statement (.ret) :=
  fun _ => by simp [encode, decodeWord, decode0]

theorem jp (nnn : BitVec 12) : Statement (.jp nnn) :=
  fun _ => by simp [encode, decodeWord]

theorem call (nnn : BitVec 12) : Statement (.call nnn) :=
  fun _ => by simp [encode, decodeWord]

theorem seVxKk (x : Reg) (kk : Byte) : Statement (.seVxKk x kk) :=
  fun _ => by simp [encode, decodeWord]

theorem sneVxKk (x : Reg) (kk : Byte) : Statement (.sneVxKk x kk) :=
  fun _ => by simp [encode, decodeWord]

theorem seVxVy (x y : Reg) (n : BitVec 4) : Statement (.seVxVy x y n) :=
  fun _ => by simp [encode, decodeWord]

theorem ldVxKk (x : Reg) (kk : Byte) : Statement (.ldVxKk x kk) :=
  fun _ => by simp [encode, decodeWord]

theorem addVxKk (x : Reg) (kk : Byte) : Statement (.addVxKk x kk) :=
  fun _ => by simp [encode, decodeWord]

theorem ldVxVy (x y : Reg) : Statement (.ldVxVy x y) :=
  fun _ => by simp [encode, decodeWord, decode8]

theorem orVxVy (x y : Reg) : Statement (.orVxVy x y) :=
  fun _ => by simp [encode, decodeWord, decode8]

theorem andVxVy (x y : Reg) : Statement (.andVxVy x y) :=
  fun _ => by simp [encode, decodeWord, decode8]

theorem xorVxVy (x y : Reg) : Statement (.xorVxVy x y) :=
  fun _ => by simp [encode, decodeWord, decode8]

theorem addVxVy (x y : Reg) : Statement (.addVxVy x y) :=
  fun _ => by simp [encode, decodeWord, decode8]

theorem subVxVy (x y : Reg) : Statement (.subVxVy x y) :=
  fun _ => by simp [encode, decodeWord, decode8]

theorem shrVx (x y : Reg) : Statement (.shrVx x y) :=
  fun _ => by simp [encode, decodeWord, decode8]

theorem subnVxVy (x y : Reg) : Statement (.subnVxVy x y) :=
  fun _ => by simp [encode, decodeWord, decode8]

theorem shlVx (x y : Reg) : Statement (.shlVx x y) :=
  fun _ => by simp [encode, decodeWord, decode8]

theorem sneVxVy (x y : Reg) (n : BitVec 4) : Statement (.sneVxVy x y n) :=
  fun _ => by simp [encode, decodeWord]

theorem ldINnn (nnn : BitVec 12) : Statement (.ldINnn nnn) :=
  fun _ => by simp [encode, decodeWord]

theorem jpV0Nnn (nnn : BitVec 12) : Statement (.jpV0Nnn nnn) :=
  fun _ => by simp [encode, decodeWord]

theorem rndVxKk (x : Reg) (kk : Byte) : Statement (.rndVxKk x kk) :=
  fun _ => by simp [encode, decodeWord]

theorem drw (x y : Reg) (n : BitVec 4) : Statement (.drw x y n) :=
  fun _ => by simp [encode, decodeWord]

theorem skp (x : Reg) : Statement (.skp x) :=
  fun _ => by simp [encode, decodeWord, decodeE]

theorem sknp (x : Reg) : Statement (.sknp x) :=
  fun _ => by simp [encode, decodeWord, decodeE]

theorem ldVxDt (x : Reg) : Statement (.ldVxDt x) :=
  fun _ => by simp [encode, decodeWord, decodeF]

theorem ldDtVx (x : Reg) : Statement (.ldDtVx x) :=
  fun _ => by simp [encode, decodeWord, decodeF]

theorem addIVx (x : Reg) : Statement (.addIVx x) :=
  fun _ => by simp [encode, decodeWord, decodeF]

theorem ldFVx (x : Reg) : Statement (.ldFVx x) :=
  fun _ => by simp [encode, decodeWord, decodeF]

theorem ldBVx (x : Reg) : Statement (.ldBVx x) :=
  fun _ => by simp [encode, decodeWord, decodeF]

theorem ldMemVx (x : Reg) : Statement (.ldMemVx x) :=
  fun _ => by simp [encode, decodeWord, decodeF]

theorem ldVxMem (x : Reg) : Statement (.ldVxMem x) :=
  fun _ => by simp [encode, decodeWord, decodeF]

theorem reserved8 (x y : Reg) (n : BitVec 4) : Statement (.reserved8 x y n) := by
  intro h
  simp [Instr.wellFormed, definedSub8] at h
  simp [encode, decodeWord, decode8, h]

theorem reservedE (x : Reg) (kk : Byte) : Statement (.reservedE x kk) := by
  intro h
  simp [Instr.wellFormed, definedSubE] at h
  simp [encode, decodeWord, decodeE, h]

theorem reservedF (x : Reg) (kk : Byte) : Statement (.reservedF x kk) := by
  intro h
  simp [Instr.wellFormed, definedSubF] at h
  simp [encode, decodeWord, decodeF, h]

theorem illegal (nnn : BitVec 12) : Statement (.illegal nnn) := by
  intro h
  simp [Instr.wellFormed, definedSub0] at h
  simp [encode, decodeWord, decode0, h]

end Sys2Proof.Laws.RoundTrip
end

