-- ==== Sys2Proof/Laws/Step.lean ====
section
/-! SUPPORT. What one instruction and one step can do, said once. -/

namespace Sys2Proof.Machine

variable {s t : State}

/-! ### The instructions with two outcomes -/

/-- CALL with room on the stack (41_control_flow.md R101). -/
theorem execCall_of_lt (s : State) (nnn : BitVec 12) (h : s.sp.val < 16) :
    execCall nnn s = .next (State.jump
      { s with stk := s.stk.set s.sp.val (s.pc + 2) h, sp := ⟨s.sp.val + 1, Nat.succ_lt_succ h⟩ }
      (addressOperand nnn)) := by
  rw [execCall, State.push_of_lt s _ h]

/-- CALL with sixteen live entries (R101). -/
theorem execCall_full (s : State) (nnn : BitVec 12) (h : s.sp.val = 16) :
    execCall nnn s = .next { s with fault := ⟨.stackOverflow, s.pc, encode (.call nnn), 16⟩ } := by
  rw [execCall, State.push_full s _ h]; rfl

/-- RET with a live entry (R102). -/
theorem execRet_of_pos (s : State) (h : 0 < s.sp.val) :
    execRet s = .next (State.jump { s with sp := ⟨s.sp.val - 1, by have := s.sp.isLt; omega⟩ }
      (s.stk[s.sp.val - 1]'(by have := s.sp.isLt; omega))) := by
  rw [execRet, State.pop_of_pos s h]

/-- RET with no live entry (R102). -/
theorem execRet_empty (s : State) (h : s.sp.val = 0) :
    execRet s = .next { s with fault := ⟨.stackUnderflow, s.pc, encode .ret, 0⟩ } := by
  rw [execRet, State.pop_empty s h]; rfl

/-- SKP of a key that has a latch (44_timer_input.md R142). -/
theorem execSkp_of_lt (s : State) (x : Reg) (h : (s.reg x).toNat < 16) :
    execSkp x s = .next (s.skipIf s.k[(s.reg x).toNat]) := by
  rw [execSkp, State.keyIndex_of_lt s x h]

/-- SKP of a key number above 15 (R142). -/
theorem execSkp_of_gt (s : State) (x : Reg) (h : 15 < (s.reg x).toNat) :
    execSkp x s =
      .next { s with fault := ⟨.keyIndexOutOfRange, s.pc, encode (.skp x), (s.reg x).toWord⟩ } := by
  rw [execSkp, State.keyIndex_of_gt s x h]; rfl

/-- SKNP of a key that has a latch (R143). -/
theorem execSknp_of_lt (s : State) (x : Reg) (h : (s.reg x).toNat < 16) :
    execSknp x s = .next (s.skipIf !s.k[(s.reg x).toNat]) := by
  rw [execSknp, State.keyIndex_of_lt s x h]

/-- SKNP of a key number above 15 (R143). -/
theorem execSknp_of_gt (s : State) (x : Reg) (h : 15 < (s.reg x).toNat) :
    execSknp x s =
      .next { s with fault := ⟨.keyIndexOutOfRange, s.pc, encode (.sknp x), (s.reg x).toWord⟩ } := by
  rw [execSknp, State.keyIndex_of_gt s x h]; rfl

/-! ### What every instruction leaves alone -/

/-- What no instruction changes: the key latches and the host's side of the interface (10_state.md R34). -/
structure SameHostSide (s t : State) : Prop where
  k : t.k = s.k
  boot : t.boot = s.boot
  font : t.font = s.font
  host : t.host = s.host
  cycle : t.cycle = s.cycle
  flushed : t.flushed = s.flushed

theorem sameHostSide_ifInBounds {c : Cause} {n : Nat} {op : Word} {u : State} (h : ifInBounds c n op s t = .next u)
    (ht : SameHostSide s t) : SameHostSide s u := by
  rcases ifInBounds_cases s c n op t u h with ⟨-, rfl⟩ | ⟨-, -, rfl⟩
  · exact ht
  · exact ⟨rfl, rfl, rfl, rfl, rfl, rfl⟩

/-- A range test answers a next state whatever the range. -/
theorem ifInBounds_next (c : Cause) (n : Nat) (op : Word) (s t : State) : ∃ u, ifInBounds c n op s t = .next u := by
  unfold ifInBounds
  split <;> exact ⟨_, rfl⟩

/-- Every instruction answers a next state: none of them stops the model (60_exceptions.md R151, log 1). -/
theorem exec_next (i : Instr) (s : State) : ∃ t, exec i s = .next t := by
  cases i with
  | ret => simp only [exec, execRet]; split <;> exact ⟨_, rfl⟩
  | call nnn => simp only [exec, execCall]; split <;> exact ⟨_, rfl⟩
  | skp x => simp only [exec, execSkp]; split <;> exact ⟨_, rfl⟩
  | sknp x => simp only [exec, execSknp]; split <;> exact ⟨_, rfl⟩
  | drw x y n => exact ifInBounds_next _ _ _ _ _
  | ldBVx x => exact ifInBounds_next _ _ _ _ _
  | ldMemVx x => exact ifInBounds_next _ _ _ _ _
  | ldVxMem x => exact ifInBounds_next _ _ _ _ _
  | _ => exact ⟨_, rfl⟩

/-- No instruction changes the key latches or the host's side (10_state.md R34). -/
theorem exec_sameHostSide {i : Instr} (h : exec i s = .next t) : SameHostSide s t := by
  have r : SameHostSide s s := ⟨rfl, rfl, rfl, rfl, rfl, rfl⟩
  cases i with
  | ret =>
    simp only [exec, execRet, State.pop] at h
    by_cases hp : 0 < s.sp.val
    · simp only [hp, dif_pos, Host.Outcome.next.injEq] at h
      subst h; exact ⟨rfl, rfl, rfl, rfl, rfl, rfl⟩
    · simp only [hp, dif_neg, not_false_eq_true, raise, Host.Outcome.next.injEq] at h
      subst h; exact ⟨rfl, rfl, rfl, rfl, rfl, rfl⟩
  | call nnn =>
    simp only [exec, execCall, State.push] at h
    by_cases hp : s.sp.val < 16
    · simp only [Config.stackDepth, hp, dif_pos, Host.Outcome.next.injEq] at h
      subst h; exact ⟨rfl, rfl, rfl, rfl, rfl, rfl⟩
    · simp only [Config.stackDepth, hp, dif_neg, not_false_eq_true, raise, Host.Outcome.next.injEq] at h
      subst h; exact ⟨rfl, rfl, rfl, rfl, rfl, rfl⟩
  | skp x =>
    simp only [exec, execSkp] at h
    split at h <;> (cases h; exact ⟨rfl, rfl, rfl, rfl, rfl, rfl⟩)
  | sknp x =>
    simp only [exec, execSknp] at h
    split at h <;> (cases h; exact ⟨rfl, rfl, rfl, rfl, rfl, rfl⟩)
  | drw x y n => exact sameHostSide_ifInBounds h ⟨rfl, rfl, rfl, rfl, rfl, rfl⟩
  | ldBVx x => exact sameHostSide_ifInBounds h ⟨rfl, rfl, rfl, rfl, rfl, rfl⟩
  | ldMemVx x => exact sameHostSide_ifInBounds h ⟨rfl, rfl, rfl, rfl, rfl, rfl⟩
  | ldVxMem x =>
    refine sameHostSide_ifInBounds h ?_
    rw [State.loadRegs_eq]
    exact ⟨rfl, rfl, rfl, rfl, rfl, rfl⟩
  | _ => cases h; exact ⟨rfl, rfl, rfl, rfl, rfl, rfl⟩

/-- The decoder accepts the two fetched bytes: the catch-all arm of the fetch is never reached (R64). -/
theorem decode_fetchBytes (s : State) :
    decode s.fetchBytes =
      .ok (decodeWord (wordOfBytes (s.readByte s.pc.toNat) (s.readByte (s.pc.toNat + 1))), []) := rfl

/-- The instruction cycle runs the instruction at pc (30_encoding.md R63). -/
theorem instructionCycle_of_canFetch (h : s.canFetch = true) :
    instructionCycle s =
      exec (decodeWord (wordOfBytes (s.readByte s.pc.toNat) (s.readByte (s.pc.toNat + 1)))) s := by
  simp [instructionCycle, h, decode_fetchBytes]

/-- A fetch beyond memory raises FetchOutOfBounds (R63). -/
theorem instructionCycle_of_not_canFetch (h : s.canFetch = false) :
    instructionCycle s = .next { s with fault := ⟨.fetchOutOfBounds, s.pc, 0, lowestBeyond s.pc⟩ } := by
  simp [instructionCycle, h, raise]

/-- The instruction cycle answers a next state. -/
theorem instructionCycle_next (s : State) : ∃ t, instructionCycle s = .next t := by
  cases h : s.canFetch
  · exact ⟨_, instructionCycle_of_not_canFetch h⟩
  · rw [instructionCycle_of_canFetch h]; exact exec_next _ _

/-- The instruction cycle leaves the host's side alone. -/
theorem instructionCycle_sameHostSide (h : instructionCycle s = .next t) : SameHostSide s t := by
  cases hc : s.canFetch
  · rw [instructionCycle_of_not_canFetch hc] at h
    cases h; exact ⟨rfl, rfl, rfl, rfl, rfl, rfl⟩
  · rw [instructionCycle_of_canFetch hc] at h
    exact exec_sameHostSide h

/-- What one machine cycle can do. -/
theorem machineCycle_cases (h : machineCycle s = .next t) :
    (s.halted = true ∧ t = s.endCycle) ∨
      (s.halted = false ∧ ∃ u, instructionCycle s = .next u ∧ t = afterInstruction s.input u) := by
  unfold machineCycle at h
  cases hs : s.halted
  · obtain ⟨u, hu⟩ := instructionCycle_next s
    rw [hs, hu] at h
    cases h
    exact .inr ⟨rfl, u, hu, rfl⟩
  · rw [hs] at h
    cases h
    exact .inl ⟨rfl, rfl⟩

/-- What one step can do: a machine cycle, RESET (also behind a quit), a quit, or LOAD with either outcome. -/
theorem step_cases (h : step s = .next t) :
    (machineCycle s = .next t ∧ (s.host = [] ∨ ∃ inp rest, s.host = .cycle inp :: rest)) ∨
      (∃ rest, (s.host = .reset :: rest ∨ s.host = .quit :: .reset :: rest) ∧ t = s.hostReset rest) ∨
      ((∃ rest, s.host = .quit :: rest) ∧ t = s) ∨
      (∃ image rest, s.host = .load image :: rest ∧ s.boot = .awaitingLoad ∧ s.halted = false ∧
        ((image.length ≤ 3584 ∧ t = s.loaded image) ∨ (3584 < image.length ∧ t = s.romTooLarge image))) := by
  unfold step hostStep at h
  split at h
  · next rest hh => cases h; exact .inr (.inl ⟨rest, .inl hh, rfl⟩)
  · next image rest hh =>
    unfold hostLoad at h
    split at h
    · next hb =>
      split at h
      · next hl => cases h; exact .inr (.inr (.inr ⟨image, rest, hh, hb.1, hb.2, .inl ⟨hl, rfl⟩⟩))
      · next hl => cases h; exact .inr (.inr (.inr ⟨image, rest, hh, hb.1, hb.2, .inr ⟨Nat.lt_of_not_le hl, rfl⟩⟩))
    · cases h
  · next rest hh =>
    unfold hostQuit at h
    split at h
    · next rest' => cases h; exact .inr (.inl ⟨rest', .inr hh, rfl⟩)
    · cases h; exact .inr (.inr (.inl ⟨⟨rest, hh⟩, rfl⟩))
  · next inp rest hh => exact .inl ⟨h, .inr ⟨inp, rest, hh⟩⟩
  · next hh => exact .inl ⟨h, .inl hh⟩

/-- The inputs of a machine cycle at the head of the queue are that cycle's (60_exceptions.md R159). -/
theorem State.input_of_cycle {inp : CycleInput} {rest : List HostEvent} (h : s.host = .cycle inp :: rest) :
    s.input = inp := by
  simp [State.input, h]

/-- With a machine cycle to come, a step is a machine cycle. -/
theorem step_of_cycle (h : s.host = [] ∨ ∃ inp rest, s.host = .cycle inp :: rest) : step s = machineCycle s := by
  unfold step hostStep
  rcases h with h | ⟨inp, rest, h⟩ <;> rw [h]

/-- A state that is ready to fetch is not changed by making it so (log 12). -/
theorem State.readyToFetch_of_ready (hh : s.halted = false) (hc : s.canFetch = true)
    (hq : s.host = [] ∨ ∃ inp rest, s.host = .cycle inp :: rest) : s.readyToFetch = s := by
  unfold State.readyToFetch
  have hd : s.host.dropWhile (fun e => !e.isCycle) = s.host := by
    rcases hq with h | ⟨inp, rest, h⟩ <;> simp [h, HostEvent.isCycle]
  rw [hh, hc, hd]
  rfl

end Sys2Proof.Machine
end

