-- ==== Sys2Proof/Tests/Slice0.lean ====
section
/-! SUPPORT. The model's own tests: ill-formed terms refused, words written out from the spec's encodings, one or
two steps per instruction with the result the spec's vectors give (95_test_vectors.md, "V-..."), and for every
obligation with hypotheses a state that meets them. -/

namespace Sys2Proof.Tests

open Sys2Proof Sys2Proof.Machine

/-! ### Ill-formed terms are refused -/

/-- 8124 is ADD V1, V2 (R65), so no reserved word. -/
theorem test_wellFormed_reserved8 :
    (Instr.reserved8 1 2 0x4).wellFormed = false ∧ (Instr.reserved8 1 2 0x8).wellFormed = true := by decide

/-- E19E is SKP V1 (R65). -/
theorem test_wellFormed_reservedE :
    (Instr.reservedE 1 0x9E).wellFormed = false ∧ (Instr.reservedE 1 0x9F).wellFormed = true := by decide

/-- F133 is LD B, V1 (R65). -/
theorem test_wellFormed_reservedF :
    (Instr.reservedF 1 0x33).wellFormed = false ∧ (Instr.reservedF 1 0x0A).wellFormed = true := by decide

/-- 00E0 is CLS (R66). -/
theorem test_wellFormed_illegal :
    (Instr.illegal 0x0E0).wellFormed = false ∧ (Instr.illegal 0x1E0).wellFormed = true := by decide

/-! ### Decoding: every constructor from a word written out bit by bit from R61, R62, R65, R68, R69 -/

theorem test_decode_family0 :
    decodeWord 0b0000000011100000 = .cls ∧ decodeWord 0b0000000011101110 = .ret ∧
      decodeWord 0b0000000111100000 = .illegal 0b000111100000 := by decide

theorem test_decode_addresses :
    decodeWord 0b0001101010111100 = .jp 0xABC ∧ decodeWord 0b0010010000000001 = .call 0x401 ∧
      decodeWord 0b1010100000000011 = .ldINnn 0x803 ∧ decodeWord 0b1011111100000000 = .jpV0Nnn 0xF00 := by decide

theorem test_decode_immediates :
    decodeWord 0b0011000110000010 = .seVxKk 1 0x82 ∧ decodeWord 0b0100001001000001 = .sneVxKk 2 0x41 ∧
      decodeWord 0b0110101000101100 = .ldVxKk 10 0x2C ∧ decodeWord 0b0111111100000001 = .addVxKk 15 0x01 ∧
      decodeWord 0b1100000100001111 = .rndVxKk 1 0x0F := by decide

theorem test_decode_registerSkips :
    decodeWord 0b0101000100100001 = .seVxVy 1 2 1 ∧ decodeWord 0b1001000100101111 = .sneVxVy 1 2 15 := by decide

theorem test_decode_family8_logic :
    decodeWord 0b1000000100100000 = .ldVxVy 1 2 ∧ decodeWord 0b1000000100100001 = .orVxVy 1 2 ∧
      decodeWord 0b1000000100100010 = .andVxVy 1 2 ∧ decodeWord 0b1000000100100011 = .xorVxVy 1 2 := by decide

theorem test_decode_family8_arithmetic :
    decodeWord 0b1000000100100100 = .addVxVy 1 2 ∧ decodeWord 0b1000000100100101 = .subVxVy 1 2 ∧
      decodeWord 0b1000001010100110 = .shrVx 2 10 ∧ decodeWord 0b1000000100100111 = .subnVxVy 1 2 ∧
      decodeWord 0b1000001010101110 = .shlVx 2 10 := by decide

theorem test_decode_draw : decodeWord 0b1101000100100101 = .drw 1 2 5 := by decide

theorem test_decode_keys :
    decodeWord 0b1110011110011110 = .skp 7 ∧ decodeWord 0b1110011110100001 = .sknp 7 := by decide

theorem test_decode_familyF :
    decodeWord 0b1111001100000111 = .ldVxDt 3 ∧ decodeWord 0b1111001100010101 = .ldDtVx 3 ∧
      decodeWord 0b1111001100011110 = .addIVx 3 ∧ decodeWord 0b1111001100101001 = .ldFVx 3 ∧
      decodeWord 0b1111001100110011 = .ldBVx 3 ∧ decodeWord 0b1111001101010101 = .ldMemVx 3 ∧
      decodeWord 0b1111001101100101 = .ldVxMem 3 := by decide

theorem test_decode_reserved :
    decodeWord 0b1000000000011000 = .reserved8 0 1 8 ∧ decodeWord 0b1110000110011111 = .reservedE 1 0x9F ∧
      decodeWord 0b1111000000001010 = .reservedF 0 0x0A := by decide

/-- The byte at the lower address is the high one (R46), and what follows is handed back. -/
theorem test_decode_bytes : decode [0x80, 0x14, 0x12] = .ok (.addVxVy 0 1, [0x12]) := by decide

/-- Fewer than two bytes are no instruction (R60). -/
theorem test_decode_truncated :
    decode [0x80] = .error .truncated ∧ decode [] = .error .truncated := by decide

theorem test_decodeTableWord :
    decodeTableWord 16 0xF065 = some (.ldVxMem 0) ∧ decodeTableWord 16 0x0000 = some (.illegal 0) ∧
      decodeTableWord 32 0xF065 = none := by decide

/-! ### One step from the vectors of 95_test_vectors.md -/

/-- The state after reset with a word placed at 0x200 and one machine cycle with these inputs to come, changed by
`f`: the convention of 95_test_vectors.md. -/
def vector (w : Nat) (inp : CycleInput) (f : State → State) : State :=
  f { State.reset.withFetchWord 16 w with host := [.cycle inp] }

/-- No tick, no key event, random byte 0. -/
def idle : CycleInput := ⟨false, 0, []⟩

/-- What is seen of the state after one step. -/
def seen {α : Type} (s : State) (g : State → α) : Option α :=
  match step s with
  | .next t => some (g t)
  | .fault _ => none
  | .refused _ => none

/-- Registers V0, V1, VF. -/
def regs (v0 v1 vf : Byte) (s : State) : State := ((s.setReg 0 v0).setReg 1 v1).setReg 15 vf

/-- V-CLS-1. -/
theorem test_cls :
    seen (vector 0x00E0 idle fun s => regs 0 0 1 (s.setFb (Vector.replicate 32 0xFF)))
      (fun t => (t.fb, t.reg 15, t.pc)) = some (Frame.blank, 1, 0x202) := by decide

/-- V-RET-2: the entry stays. -/
theorem test_ret :
    seen (vector 0x00EE idle fun s => { s with sp := 1, stk := s.stk.set 0 0x0ABC })
      (fun t => (t.sp, t.pc, t.stk[0])) = some (0, 0xABC, 0xABC) := by decide

/-- V-DEC-2, P6a. -/
theorem test_ret_underflow :
    seen (vector 0x00EE idle id) (fun t => (t.fault, t.pc)) =
      some (⟨.stackUnderflow, 0x200, 0x00EE, 0⟩, 0x200) := by decide

/-- V-JP-1. -/
theorem test_jp : seen (vector 0x1ABC idle id) State.pc = some 0xABC := by decide

/-- V-CALL-2. -/
theorem test_call :
    seen (vector 0x2300 idle fun s => { s with sp := 15 }) (fun t => (t.stk[15], t.sp, t.pc)) =
      some (0x202, 16, 0x300) := by decide

/-- V-CALL-3. -/
theorem test_call_overflow :
    seen (vector 0x2300 idle fun s => { s with sp := 16 }) (fun t => (t.fault, t.sp, t.pc)) =
      some (⟨.stackOverflow, 0x200, 0x2300, 0x10⟩, 16, 0x200) := by decide

/-- V-SE-1, V-SE-2. -/
theorem test_seVxKk :
    seen (vector 0x302A idle (regs 0x2A 0 0)) State.pc = some 0x204 ∧
      seen (vector 0x302B idle (regs 0x2A 0 0)) State.pc = some 0x202 := by decide

/-- V-SNE-1, V-SNE-2. -/
theorem test_sneVxKk :
    seen (vector 0x402A idle (regs 0x2A 0 0)) State.pc = some 0x202 ∧
      seen (vector 0x402B idle (regs 0x2A 0 0)) State.pc = some 0x204 := by decide

/-- V-SER-1 and V-SER-2 with V0, V1, and the low nibble of V-DEC-9. -/
theorem test_seVxVy :
    seen (vector 0x5011 idle (regs 4 4 0)) State.pc = some 0x204 ∧
      seen (vector 0x5010 idle (regs 4 5 0)) State.pc = some 0x202 := by decide

/-- V-SNER-2 and V-SNER-1 with V0, V1, and the low nibble of V-DEC-10. -/
theorem test_sneVxVy :
    seen (vector 0x9010 idle (regs 4 4 0)) State.pc = some 0x202 ∧
      seen (vector 0x901F idle (regs 4 5 0)) State.pc = some 0x204 := by decide

/-- V-LD-2: VF is an ordinary destination. -/
theorem test_ldVxKk :
    seen (vector 0x6F00 idle (regs 0 0 1)) (fun t => (t.reg 15, t.pc)) = some (0, 0x202) := by decide

/-- V-ADDI-2 with V0: it wraps and writes no flag. -/
theorem test_addVxKk :
    seen (vector 0x7001 idle (regs 0xFF 0 7)) (fun t => (t.reg 0, t.reg 15)) = some (0, 7) := by decide

/-- V-MOV-1. -/
theorem test_ldVxVy :
    seen (vector 0x8010 idle (regs 0x12 0x34 0)) (fun t => (t.reg 0, t.reg 1)) = some (0x34, 0x34) := by decide

/-- V-OR-1. -/
theorem test_orVxVy :
    seen (vector 0x8011 idle (regs 0xF0 0x0F 0x55)) (fun t => (t.reg 0, t.reg 15)) = some (0xFF, 0x55) := by decide

/-- V-AND-1. -/
theorem test_andVxVy :
    seen (vector 0x8012 idle (regs 0xF3 0x3F 0x55)) (fun t => (t.reg 0, t.reg 15)) = some (0x33, 0x55) := by decide

/-- V-XOR-1. -/
theorem test_xorVxVy :
    seen (vector 0x8013 idle (regs 0xFF 0x0F 0x55)) (fun t => (t.reg 0, t.reg 15)) = some (0xF0, 0x55) := by decide

/-- V-ADD-4, V-ADD-5. -/
theorem test_addVxVy :
    seen (vector 0x8014 idle (regs 0x80 0x7F 0)) (fun t => (t.reg 0, t.reg 15)) = some (0xFF, 0) ∧
      seen (vector 0x8014 idle (regs 0x80 0x80 0)) (fun t => (t.reg 0, t.reg 15)) = some (0, 1) := by decide

/-- V-XF-1, V-YF-1. -/
theorem test_addVxVy_vf :
    seen (vector 0x8F14 idle (regs 0 0x20 0xF0)) (fun t => t.reg 15) = some 1 ∧
      seen (vector 0x80F4 idle (regs 1 0 1)) (fun t => (t.reg 0, t.reg 15)) = some (2, 0) := by decide

/-- V-SUB-2, V-SUB-3. -/
theorem test_subVxVy :
    seen (vector 0x8015 idle (regs 5 0xA 0)) (fun t => (t.reg 0, t.reg 15)) = some (0xFB, 0) ∧
      seen (vector 0x8015 idle (regs 7 7 0)) (fun t => (t.reg 0, t.reg 15)) = some (0, 1) := by decide

/-- V-XF-4. -/
theorem test_subVxVy_vf : seen (vector 0x8F15 idle (regs 0 5 3)) (fun t => t.reg 15) = some 0 := by decide

/-- V-SHR-1: the Y register is not read. -/
theorem test_shrVx :
    seen (vector 0x8016 idle (regs 5 0x33 0)) (fun t => (t.reg 0, t.reg 1, t.reg 15)) = some (2, 0x33, 1) := by
  decide

/-- V-XF-7. -/
theorem test_shrVx_vf : seen (vector 0x8F16 idle (regs 0 0 3)) (fun t => t.reg 15) = some 0 := by decide

/-- V-SUBN-1, V-SUBN-2. -/
theorem test_subnVxVy :
    seen (vector 0x8017 idle (regs 5 0xA 0)) (fun t => (t.reg 0, t.reg 15)) = some (5, 1) ∧
      seen (vector 0x8017 idle (regs 0xA 5 0)) (fun t => (t.reg 0, t.reg 15)) = some (0xFB, 0) := by decide

/-- V-XF-6. -/
theorem test_subnVxVy_vf : seen (vector 0x8F17 idle (regs 0 5 3)) (fun t => t.reg 15) = some 1 := by decide

/-- V-SHL-3 (the mask is 0x80, not 0xA0), V-SHL-1. -/
theorem test_shlVx :
    seen (vector 0x801E idle (regs 0x20 0x33 0)) (fun t => (t.reg 0, t.reg 1, t.reg 15)) = some (0x40, 0x33, 0) ∧
      seen (vector 0x801E idle (regs 0x81 0x33 0)) (fun t => (t.reg 0, t.reg 15)) = some (2, 1) := by decide

/-- V-XF-9. -/
theorem test_shlVx_vf : seen (vector 0x8F1E idle (regs 0 0 0x81)) (fun t => t.reg 15) = some 2 := by decide

/-- V-LDI-1. -/
theorem test_ldINnn :
    seen (vector 0xA123 idle fun s => s.setI 0xFFFF) (fun t => (t.i, t.pc)) = some (0x123, 0x202) := by decide

/-- V-JP0-2: no wrap to twelve bits. -/
theorem test_jpV0Nnn : seen (vector 0xBFFF idle (regs 0xFF 0 0)) State.pc = some 0x10FE := by decide

/-- V-RND-1. -/
theorem test_rndVxKk : seen (vector 0xC10F ⟨false, 0xB7, []⟩ id) (fun t => t.reg 1) = some 7 := by decide

/-- V-DRW-3, two of the pixels and one beside them. -/
theorem test_drw_wraps :
    seen (vector 0xD011 idle fun s => (regs 0xFF 0xFF 1 (s.setI 0x300)).writeBytes 0x300 [0xC0])
      (fun t => (t.fb.pixel 63 31, t.fb.pixel 0 31, t.fb.pixel 1 31, t.reg 15)) =
      some (true, true, false, 0) := by decide

/-- V-DRW-9 onto a pixel that is on: read before the flag is written, and the pixel goes off with VF = 1. -/
theorem test_drw_vf :
    seen (vector 0xDFF1 idle fun s =>
        (regs 0 0 3 (s.setI 0x300)).writeBytes 0x300 [0x80] |>.setFb (Frame.blank.xorPixel 3 3 true))
      (fun t => (t.fb, t.reg 15)) = some (Frame.blank, 1) := by decide

/-- V-KEY-5. -/
theorem test_skp :
    seen (vector 0xE09E idle fun s => { regs 0xF 0 0 s with k := s.k.set 15 true }) State.pc = some 0x204 := by
  decide

/-- V-KEY-6. -/
theorem test_skp_fault :
    seen (vector 0xE09E idle (regs 0x10 0 0)) (fun t => (t.fault, t.pc)) =
      some (⟨.keyIndexOutOfRange, 0x200, 0xE09E, 0x10⟩, 0x200) := by decide

/-- V-KEY-3, V-KEY-4. -/
theorem test_sknp :
    seen (vector 0xE0A1 idle fun s => { regs 7 0 0 s with k := s.k.set 7 true }) State.pc = some 0x202 ∧
      seen (vector 0xE0A1 idle (regs 7 0 0)) State.pc = some 0x204 := by decide

/-- V-DT-4: read before the decrement. -/
theorem test_ldVxDt :
    seen (vector 0xF207 ⟨true, 0, []⟩ fun s => s.setDt 3) (fun t => (t.reg 2, t.dt)) = some (3, 2) := by decide

/-- V-DT-2, V-DT-3. -/
theorem test_ldDtVx :
    seen (vector 0xF015 idle (regs 3 0 0)) State.dt = some 3 ∧
      seen (vector 0xF015 ⟨true, 0, []⟩ (regs 3 0 0)) State.dt = some 2 := by decide

/-- V-ADDI-I-2, V-ADDI-I-4 with V0. -/
theorem test_addIVx :
    seen (vector 0xF01E idle fun s => regs 1 0 9 (s.setI 0x0FFF)) (fun t => (t.i, t.reg 15)) = some (0x1000, 1) ∧
      seen (vector 0xF01E idle fun s => regs 1 0 9 (s.setI 0xFFFF)) (fun t => (t.i, t.reg 15)) = some (0, 0) := by
  decide

/-- V-ADDI-I-8. -/
theorem test_addIVx_vf :
    seen (vector 0xFF1E idle fun s => regs 0 0 1 (s.setI 0x0FFF)) (fun t => (t.i, t.reg 15)) =
      some (0x1000, 1) := by decide

/-- V-GLYPH-5: V[x] is not masked. -/
theorem test_ldFVx : seen (vector 0xF029 idle (regs 0xFF 0 0)) State.i = some 0x04FB := by decide

/-- V-BCD-1 and the last cell of V-BCD-8. -/
theorem test_ldBVx :
    seen (vector 0xF033 idle fun s => regs 0xEA 0 0 (s.setI 0xFFD))
      (fun t => (t.readByte 0xFFD, t.readByte 0xFFE, t.readByte 0xFFF, t.i)) = some (2, 3, 4, 0xFFD) := by decide

/-- V-BCD-9: no partial store. -/
theorem test_ldBVx_fault :
    seen (vector 0xF033 idle fun s => regs 0xFF 0 0 (s.setI 0xFFE))
      (fun t => (t.fault, t.readByte 0xFFE)) =
      some (⟨.dataWriteOutOfBounds, 0x200, 0xF033, 0x1000⟩, 0) := by decide

/-- V-ST-1 with two registers: V2 is not stored, I stays. -/
theorem test_ldMemVx :
    seen (vector 0xF155 idle fun s => (regs 1 2 0 (s.setI 0x300)).setReg 2 9)
      (fun t => (t.readByte 0x300, t.readByte 0x301, t.readByte 0x302, t.i)) = some (1, 2, 0, 0x300) := by decide

/-- V-ST-4: all or nothing. -/
theorem test_ldMemVx_fault :
    seen (vector 0xFF55 idle fun s => regs 1 2 3 (s.setI 0xFF1))
      (fun t => (t.fault, t.readByte 0xFF1)) =
      some (⟨.dataWriteOutOfBounds, 0x200, 0xFF55, 0x1000⟩, 0) := by decide

/-- V-FONT (the default FONT, PRESUMED) and V-LDM-1: V1 is not loaded. -/
theorem test_ldVxMem :
    seen (vector 0xF065 idle fun s => regs 1 2 3 (s.setI 0x19)) (fun t => (t.reg 0, t.reg 1, t.i)) =
      some (0xF0, 2, 0x19) := by decide

/-- V-LDM-3. -/
theorem test_ldVxMem_fault :
    seen (vector 0xFF65 idle fun s => regs 1 2 3 (s.setI 0xFF1)) (fun t => (t.fault, t.reg 0)) =
      some (⟨.dataReadOutOfBounds, 0x200, 0xFF65, 0x1000⟩, 1) := by decide

/-- V-DEC-11, V-DEC-14, V-DEC-15, V-DEC-16: registers, I and DT unchanged. -/
theorem test_reserved :
    ∀ w ∈ [0x8018, 0xE19F, 0xF00A, 0xF018],
      seen (vector w idle fun s => (regs 0x12 0x34 0x56 (s.setI 0x123)).setDt 9)
        (fun t => (t.reg 0, t.reg 1, t.reg 15, t.i, t.dt)) = some (0x12, 0x34, 0x56, 0x123, 9) ∧
      seen (vector w idle id) (fun t => (t.pc, t.fault)) = some (0x202, FaultLatch.clear) := by decide

/-- V-DEC-4, and V-DT-8: a tick does nothing in a faulting cycle. -/
theorem test_illegal :
    seen (vector 0x01E0 ⟨true, 0, []⟩ fun s => s.setDt 5) (fun t => (t.fault, t.pc, t.dt)) =
      some (⟨.decodeError, 0x200, 0x01E0, 0⟩, 0x200, 5) := by decide

/-! ### The machine cycle, reset and load -/

/-- V-END-1's second cycle, and the second cycle of V-JP-3. -/
theorem test_fetch_fault :
    seen (vector 0x6000 idle fun s => s.jump 0x1000) State.fault =
        some ⟨.fetchOutOfBounds, 0x1000, 0, 0x1000⟩ ∧
      seen (vector 0x6000 idle fun s => s.jump 0xFFF) State.fault =
        some ⟨.fetchOutOfBounds, 0xFFF, 0, 0x1000⟩ := by decide

/-- V-KEY-8 and V-KEY-9: events come after the instruction, in order. -/
theorem test_key_events :
    seen (vector 0xE09E ⟨false, 0, [(7, true)]⟩ (regs 7 0 0)) (fun t => (t.pc, t.k[7])) = some (0x202, true) ∧
      seen (vector 0x6000 ⟨false, 0, [(7, true), (7, false)]⟩ id) (fun t => t.k[7]) = some false := by decide

/-- V-DT-5, V-DT-6, and R165: the flush carries the framebuffer after the instruction. -/
theorem test_tick :
    seen (vector 0x6000 ⟨true, 0, []⟩ id) State.dt = some 0 ∧
      seen (vector 0x6000 ⟨true, 0, []⟩ fun s => s.setDt 1) State.dt = some 0 ∧
      seen (vector 0x00E0 ⟨true, 0, []⟩ fun s => s.setFb (Vector.replicate 32 0xFF)) State.flushed =
        some [Frame.blank] := by decide

/-- V-LOAD-1. -/
theorem test_load :
    seen { State.reset with host := [.load [0x12, 0x00]] } (fun t => (t.mem, t.boot, t.pc)) =
      some ([(0x200, 0x12)], .started, 0x200) := by decide

/-- V-LOAD-3. -/
theorem test_load_too_large :
    seen { State.reset with host := [.load (List.replicate 3585 0xFF)] } (fun t => (t.fault, t.mem)) =
      some (⟨.romTooLarge, 0x200, 0, 0xE01⟩, []) := by decide +kernel

/-- V-HALT-1. -/
theorem test_halted :
    seen (vector 0x6001 ⟨true, 0, [(3, true)]⟩ fun s =>
        { s.setDt 5 with fault := ⟨.decodeError, 0x200, 0, 0⟩ })
      (fun t => (t.dt, t.k[3], t.pc, t.reg 0, t.fault)) =
      some (5, false, 0x200, 0, ⟨.decodeError, 0x200, 0, 0⟩) := by decide

/-! ### Every obligation's hypotheses are met somewhere

A witness names its obligation and gives, for each clause with hypotheses, concrete values that meet them, at the
ends of their ranges. -/

/-- A state after reset with these registers, I and machine cycle to come. -/
def base (v0 v1 vf : Byte) (i : Word) : State := vector 0x6000 idle fun s => regs v0 v1 vf (s.setI i)

theorem witness_DecodeOfEncodeIsTheInstruction :
    (Instr.reserved8 3 4 0xD).wellFormed = true ∧ (Instr.drw 15 0 15).wellFormed = true := by decide

theorem witness_RowsMatchExactlyTheirWords :
    definedPatterns[0]? = some ⟨0xFFFF, 0x00E0⟩ ∧ definedPatterns[31]? = some ⟨0xF0FF, 0xF065⟩ := by decide

theorem witness_AddSetsTheCarry :
    ((0 : Reg) ≠ 15 ∧ 256 ≤ ((base 0x80 0x80 0 0).reg 0).toNat + ((base 0x80 0x80 0 0).reg 1).toNat) ∧
      ¬ 256 ≤ ((base 0x80 0x7F 0 0).reg 0).toNat + ((base 0x80 0x7F 0 0).reg 1).toNat := by decide

theorem witness_SubtractionsSetNoBorrow :
    ((0 : Reg) ≠ 15 ∧ ((base 7 7 0 0).reg 1).toNat ≤ ((base 7 7 0 0).reg 0).toNat) ∧
      ¬ ((base 6 7 0 0).reg 1).toNat ≤ ((base 6 7 0 0).reg 0).toNat := by decide

theorem witness_ShiftsSetTheBitShiftedOut :
    ((14 : Reg) ≠ 15 ∧ (15 : Reg) = 15) ∧ 0x80 ≤ ((base 0x80 0 0x80 0).reg 15).toNat ∧
      ¬ 0x80 ≤ ((base 0x7F 0 0x7F 0).reg 0).toNat := by decide

theorem witness_RandomMasksTheDrawnByte : (base 0 0 0 0).host = .cycle idle :: [] := by decide

theorem witness_CallPushesTheReturnAddress :
    ({ State.reset with sp := 15 } : State).sp.val < 16 ∧ ({ State.reset with sp := 16 } : State).sp.val = 16 := by
  decide

theorem witness_ReturnPopsIntoPc :
    (0 < ({ State.reset with sp := 1 } : State).sp.val ∧
      (0 : Fin 16).val + 1 = ({ State.reset with sp := 1 } : State).sp.val) ∧ State.reset.sp.val = 0 := by decide

theorem witness_CallThenReturnComesBack :
    ({ State.reset with sp := 15 } : State).sp.val < 16 ∧ (14 : Fin 16).val < 15 := by decide

theorem witness_DecimalDigitsAreStored :
    (base 0 0 0 0xFFD).i.toNat + 2 ≤ 0xFFF ∧ 0xFFF < (base 0 0 0 0xFFE).i.toNat + 2 := by decide

theorem witness_RegistersAreStored :
    ((base 0 0 0 0xFF0).i.toNat + (15 : Reg).val ≤ 0xFFF ∧ (15 : Reg) ≤ 15) ∧
      0xFFF < (base 0 0 0 0xFF1).i.toNat + (15 : Reg).val := by decide

theorem witness_RegistersAreLoaded :
    (base 0 0 0 0xFFF).i.toNat + (0 : Reg).val ≤ 0xFFF ∧ 0xFFF < (base 0 0 0 0x1000).i.toNat + (0 : Reg).val := by
  decide

theorem witness_StoreThenLoadReturnsTheRegisters :
    (base 1 2 3 0xFF1).i.toNat + (14 : Reg).val ≤ 0xFFF ∧ (14 : Reg) ≤ 14 ∧ (14 : Reg) < 15 := by decide

/-- One sprite byte 80 at the last address of memory, drawn at (0, 0). -/
def dot : State := (base 0 0 0 0xFFF).writeBytes 0xFFF [0x80]

theorem dot_covers : SpriteCovers dot 0 0 1 0 0 := ⟨0, 0, by decide⟩

/-- The draw in bounds, a pixel it covers and one it does not, with no collision. -/
theorem witness_DrawXorsTheSpriteAndFlagsCollision :
    ((1 : BitVec 4) = 0 ∨ dot.i.toNat + (1 : BitVec 4).toNat - 1 ≤ 0xFFF) ∧
      SpriteCovers dot (dot.reg 0).toNat (dot.reg 1).toNat (1 : BitVec 4).toNat 0 0 ∧
      ¬ SpriteCovers dot (dot.reg 0).toNat (dot.reg 1).toNat (1 : BitVec 4).toNat 9 0 ∧
      ¬ ∃ px py, dot.fb.pixel px py = true ∧
        SpriteCovers dot (dot.reg 0).toNat (dot.reg 1).toNat (1 : BitVec 4).toNat px py := by
  refine ⟨by decide, dot_covers, ?_, ?_⟩
  · rintro ⟨j, c, hj, hc, -, hx, -⟩
    have h0 : (dot.reg 0).toNat = 0 := by decide
    rw [h0] at hx
    have : (9 : Fin 64).val = 9 := rfl
    omega
  · rintro ⟨px, py, hp, -⟩
    have hb : dot.fb = Frame.blank := by decide
    rw [hb] at hp
    simp [Frame.pixel, Frame.blank] at hp

/-- The draw in bounds with a collision, the draw of no row at an address beyond memory, and the draw out of
bounds. -/
theorem witness_DrawXorsTheSpriteAndFlagsCollision_edges :
    (∃ px py, (dot.setFb (Frame.blank.xorPixel 0 0 true)).fb.pixel px py = true ∧
      SpriteCovers (dot.setFb (Frame.blank.xorPixel 0 0 true)) 0 0 1 px py) ∧
      ((0 : BitVec 4) = 0 ∨ (base 0 0 0 0x2000).i.toNat + (0 : BitVec 4).toNat - 1 ≤ 0xFFF) ∧
      ((2 : BitVec 4) ≠ 0 ∧ 0xFFF < dot.i.toNat + (2 : BitVec 4).toNat - 1) :=
  ⟨⟨0, 0, by decide, 0, 0, by decide⟩, by decide, by decide⟩

/-- Two registers as position, and VF as position with an old value that the flag happens to equal. -/
theorem witness_DoubleDrawRestoresTheScreen :
    ((1 : BitVec 4) = 0 ∨ dot.i.toNat + (1 : BitVec 4).toNat - 1 ≤ 0xFFF) ∧
      (∃ t, exec (.drw 0 1 1) dot = .next t ∧ t.reg 0 = dot.reg 0 ∧ t.reg 1 = dot.reg 1) ∧
      (∃ t, exec (.drw 15 15 1) dot = .next t ∧ t.reg 15 = dot.reg 15) :=
  ⟨by decide, ⟨_, rfl, by decide, by decide⟩, _, rfl, by decide⟩

theorem witness_KeyTestsSkipOnTheLatch :
    ((base 15 0 0 0).reg 0).toNat = (15 : Fin 16).val ∧ 15 < ((base 16 0 0 0).reg 0).toNat := by decide

theorem witness_ReservedWordsOnlyAdvance :
    ((0xF : BitVec 4) ∈ ([0x8, 0x9, 0xA, 0xB, 0xC, 0xD, 0xF] : List (BitVec 4))) ∧
      ((0x9F : Byte) ∉ ([0x9E, 0xA1] : List Byte)) ∧
      ((0x0A : Byte) ∉ ([0x07, 0x15, 0x1E, 0x29, 0x33, 0x55, 0x65] : List Byte)) := by decide

theorem witness_IllegalWordsRaiseDecodeError :
    (0x1E0 : BitVec 12) ≠ 0x0E0 ∧ (0x1E0 : BitVec 12) ≠ 0x0EE := by decide

/-- Each clause of the statement has an instruction that changes what the clause speaks of. -/
theorem witness_OnlyTheNamedInstructionsWrite :
    (∃ t, exec (.ldVxKk 0 1) State.reset = .next t ∧ t.reg 0 ≠ State.reset.reg 0) ∧
      (∃ t, exec (.ldINnn 1) State.reset = .next t ∧ t.i ≠ State.reset.i) ∧
      (∃ t, exec (.call 0) State.reset = .next t ∧ t.sp ≠ State.reset.sp ∧ t.stk ≠ State.reset.stk) ∧
      (∃ t, exec (.ldDtVx 0) (base 1 0 0 0) = .next t ∧ t.dt ≠ (base 1 0 0 0).dt) ∧
      (∃ t, exec (.drw 0 1 1) dot = .next t ∧ t.fb ≠ dot.fb) ∧
      (∃ t, exec (.ldBVx 0) (base 1 0 0 0x300) = .next t ∧
        ∃ a, t.readByte a ≠ (base 1 0 0 0x300).readByte a) :=
  ⟨⟨_, rfl, by decide⟩, ⟨_, rfl, by decide⟩, ⟨_, rfl, by decide, by decide⟩, ⟨_, rfl, by decide⟩,
    ⟨_, rfl, by decide⟩, ⟨_, rfl, 0x302, by decide⟩⟩

theorem witness_InstructionsFaultExactlyUnderTheirCondition :
    Instr.faultOf (.ldVxMem 15) (base 0 0 0 0xFF1) = some (.dataReadOutOfBounds, 0x1000) ∧
      Instr.faultOf (.ldVxMem 15) (base 0 0 0 0xFF0) = none ∧
      Instr.faultOf (.drw 0 1 0) (base 0 0 0 0x2000) = none ∧
      Instr.faultOf (.skp 0) (base 16 0 0 0) = some (.keyIndexOutOfRange, 16) ∧
      Instr.faultOf (.skp 0) (base 15 0 0 0) = none := by decide

/-- With the random byte kept, another tick, other keys and another count give the hypotheses for RND too. -/
theorem witness_OnlyRandomReadsTheHostInput :
    (∃ t, exec (.rndVxKk 1 0x0F) (base 0 0 0 0) = .next t) ∧
      (∀ x kk, (Instr.rndVxKk 1 0x0F) = .rndVxKk x kk →
        ({ base 0 0 0 0 with host := [.cycle ⟨true, 0, [(1, true)]⟩], cycle := 9 } : State).input.rnd =
          (base 0 0 0 0).input.rnd) :=
  ⟨⟨_, rfl⟩, fun _ _ _ => rfl⟩

/-- The last address a word can be fetched from, an instruction that completes and one that faults there, and a
host queue that is empty. -/
theorem witness_StepRunsTheDecodedInstruction :
    (∃ t, (base 0 0 0 0).ready ∧ (base 0 0 0 0).pc.toNat + 1 ≤ 0xFFF ∧
      decode [(base 0 0 0 0).readByte (base 0 0 0 0).pc.toNat,
        (base 0 0 0 0).readByte ((base 0 0 0 0).pc.toNat + 1)] = .ok (.ldVxKk 0 0, []) ∧
      exec (.ldVxKk 0 0) (base 0 0 0 0) = .next t ∧ t.halted = false) ∧
    (∃ t, (State.reset.jump 0xFFE).ready ∧ (State.reset.jump 0xFFE).pc.toNat + 1 ≤ 0xFFF ∧
      decode [(State.reset.jump 0xFFE).readByte (State.reset.jump 0xFFE).pc.toNat,
        (State.reset.jump 0xFFE).readByte ((State.reset.jump 0xFFE).pc.toNat + 1)] = .ok (.illegal 0, []) ∧
      exec (.illegal 0) (State.reset.jump 0xFFE) = .next t ∧ t.halted = true) :=
  ⟨⟨_, ⟨rfl, .inr ⟨_, _, rfl⟩⟩, by decide, by decide, rfl, rfl⟩,
    ⟨_, ⟨rfl, .inl rfl⟩, by decide, by decide, rfl, rfl⟩⟩

/-- A cycle with a tick, and one without, both with an instruction that raises no fault. -/
theorem witness_TickCountsDownAndFlushes :
    (∃ t u, (vector 0x6000 ⟨true, 0, []⟩ id).host = .cycle ⟨true, 0, []⟩ :: [] ∧
      (vector 0x6000 ⟨true, 0, []⟩ id).halted = false ∧
      instructionCycle (vector 0x6000 ⟨true, 0, []⟩ id) = .next t ∧ t.halted = false ∧
      step (vector 0x6000 ⟨true, 0, []⟩ id) = .next u) ∧
    (∃ t u, (base 0 0 0 0).host = .cycle idle :: [] ∧ (base 0 0 0 0).halted = false ∧
      instructionCycle (base 0 0 0 0) = .next t ∧ t.halted = false ∧ step (base 0 0 0 0) = .next u) :=
  ⟨⟨_, _, rfl, rfl, rfl, rfl, rfl⟩, ⟨_, _, rfl, rfl, rfl, rfl, rfl⟩⟩

/-- Two events for key 7, the second one last, and none for key 3. -/
def twice : CycleInput := ⟨false, 0, [(7, true), (7, false)]⟩

theorem witness_LastKeyEventWins :
    (∃ t u, (vector 0x6000 twice id).host = .cycle twice :: [] ∧ (vector 0x6000 twice id).halted = false ∧
      instructionCycle (vector 0x6000 twice id) = .next t ∧ t.halted = false ∧
      step (vector 0x6000 twice id) = .next u) ∧
    (twice.keys = [(7, true)] ++ (7, false) :: [] ∧ ∀ e ∈ ([] : List (Fin 16 × Bool)), e.1 ≠ 7) ∧
    (∀ e ∈ twice.keys, e.1 ≠ 3) :=
  ⟨⟨_, _, rfl, rfl, rfl, rfl, rfl⟩, by decide, by decide⟩

theorem witness_FetchBeyondMemoryFaults :
    (State.reset.jump 0xFFF).ready ∧ 0xFFF < (State.reset.jump 0xFFF).pc.toNat + 1 :=
  ⟨⟨rfl, .inl rfl⟩, by decide⟩

/-- A cycle that faults in its instruction, and one that faults in its fetch. -/
theorem witness_FaultsArePreciseAndSkipTheOtherPhases :
    (∃ t, (vector 0x0000 idle id).ready ∧ step (vector 0x0000 idle id) = .next t ∧ t.halted = true) ∧
      (∃ t, (State.reset.jump 0xFFF).ready ∧ step (State.reset.jump 0xFFF) = .next t ∧ t.halted = true) :=
  ⟨⟨_, ⟨rfl, .inr ⟨_, _, rfl⟩⟩, rfl, rfl⟩, ⟨_, ⟨rfl, .inl rfl⟩, rfl, rfl⟩⟩

/-- A halted state, with what the host does next. -/
def halted (host : List HostEvent) : State :=
  { State.reset with fault := ⟨.decodeError, 0x200, 0, 0⟩, host := host }

theorem witness_HaltedCycleDoesNothing :
    ((halted []).halted = true ∧ (halted []).host = []) ∧
      ((halted [.cycle idle]).halted = true ∧ ∃ inp rest, (halted [.cycle idle]).host = .cycle inp :: rest) :=
  ⟨⟨rfl, rfl⟩, rfl, _, _, rfl⟩

/-- A halted machine that a RESET wakes, and one that issues a cycle. -/
theorem witness_OnlyResetLeavesAHalt :
    (∃ t, (halted [.reset]).halted = true ∧ step (halted [.reset]) = .next t ∧ t.halted = false) ∧
      (∃ t, (halted []).halted = true ∧ step (halted []) = .next t ∧ t.halted = true) :=
  ⟨⟨_, rfl, rfl, rfl⟩, ⟨_, rfl, rfl, rfl⟩⟩

/-- 1200 at 0x200 is a jump to itself (R200). -/
theorem witness_FinalStateStaysFinal :
    (vector 0x1200 idle id).ready ∧ (vector 0x1200 idle id).isFinal :=
  ⟨⟨rfl, .inr ⟨_, _, rfl⟩⟩, rfl, by decide, 0x200, by decide, by decide⟩

theorem witness_ResetEventRestoresEveryValue :
    (halted [.reset]).host = .reset :: [] ∧ (halted [.quit, .reset]).host = .quit :: .reset :: [] := by decide

/-- The largest image that fits, and a LOAD after the first cycle. -/
theorem witness_LoadCopiesTheImageOnce :
    (({ State.reset with host := [.load (List.replicate 3584 0xFF)] } : State).boot = .awaitingLoad ∧
      State.reset.halted = false ∧ (List.replicate 3584 (0xFF : Byte)).length ≤ 3584) ∧
    ({ State.reset with host := [.load []], boot := .started } : State).boot = .started := by
  refine ⟨⟨rfl, rfl, ?_⟩, rfl⟩
  rw [List.length_replicate]

theorem witness_RomTooLargeCopiesNothing :
    State.reset.boot = .awaitingLoad ∧ State.reset.halted = false ∧
      3584 < (List.replicate 3585 (0xFF : Byte)).length := by
  refine ⟨rfl, rfl, ?_⟩
  rw [List.length_replicate]; decide

theorem witness_QuitChangesNothing :
    (halted [.quit, .cycle idle]).host = .quit :: [.cycle idle] ∧
      ∀ rest', [HostEvent.cycle idle] ≠ .reset :: rest' :=
  ⟨rfl, fun _ h => by cases h⟩

/-- A running machine at the last fetchable address with a full stack, and a machine that awaits its LOAD. -/
theorem witness_EveryStepKeepsTheInvariant :
    (∃ t, ({ State.reset.jump 0xFFE with boot := .started, sp := 16 } : State).Inv ∧
      step ({ State.reset.jump 0xFFE with boot := .started, sp := 16 } : State) = .next t) ∧
    (∃ t, ({ State.reset with host := [.load [0x12, 0x00]] } : State).Inv ∧
      step ({ State.reset with host := [.load [0x12, 0x00]] } : State) = .next t) :=
  ⟨⟨_, ⟨rfl, by decide, by decide, fun _ => rfl, fun h => by cases h⟩, rfl⟩,
    ⟨_, ⟨rfl, by decide, by decide, fun _ => rfl, fun _ => rfl⟩, rfl⟩⟩

theorem witness_CanonicalMemoryIsUnique :
    Memory.wf defaultFont [(0x000, 0xF1), (0xFFF, 1)] = true ∧
      ∀ a, Memory.read defaultFont [(0x000, 0xF1), (0xFFF, 1)] a =
        Memory.read defaultFont [(0x000, 0xF1), (0xFFF, 1)] a :=
  ⟨by decide, fun _ => rfl⟩

/-- Two states that differ in a dead entry, one live entry below it, stepping on; and a pair whose LOAD is
refused. -/
theorem witness_DeadStackEntriesAreNeverObserved :
    (∃ s', SameButDeadStack ({ base 0 0 0 0 with sp := 1 } : State)
        ({ base 0 0 0 0 with sp := 1, stk := State.reset.stk.set 1 5 } : State) ∧
      step ({ base 0 0 0 0 with sp := 1 } : State) = .next s') ∧
    (SameButDeadStack ({ State.reset with host := [.load []], boot := .started } : State)
        ({ State.reset with host := [.load []], boot := .started, stk := State.reset.stk.set 0 5 } : State) ∧
      step ({ State.reset with host := [.load []], boot := .started } : State) = .refused .loadOutsideBoot) :=
  ⟨⟨_, ⟨rfl, by decide⟩, rfl⟩, ⟨rfl, by decide⟩, rfl⟩

end Sys2Proof.Tests
end

section
/-! PROOF. The family of 10_state.md: what an instruction may write (R34), the reset table (R32), the invariant, and
the dead stack entries nobody observes (R25). One rule per operation of the state comes first; from these follows, once,
what any instruction can do (`exec_effect`), and from that the statements. -/

namespace Sys2Proof

open Machine

/-- The parts of the state, pc and FAULT apart, that an instruction may write when it completes (10_state.md R34). -/
def Instr.writtenParts : Instr → List Part
  | .cls => [.fb]
  | .ret | .call _ => [.stack]
  | .ldVxKk _ _ | .addVxKk _ _ | .ldVxVy _ _ | .orVxVy _ _ | .andVxVy _ _ | .xorVxVy _ _ | .addVxVy _ _
  | .subVxVy _ _ | .shrVx _ _ | .subnVxVy _ _ | .shlVx _ _ | .rndVxKk _ _ | .ldVxDt _ | .ldVxMem _ => [.v]
  | .drw _ _ _ => [.v, .fb]
  | .addIVx _ => [.v, .i]
  | .ldINnn _ | .ldFVx _ => [.i]
  | .ldDtVx _ => [.dt]
  | .ldBVx _ | .ldMemVx _ => [.mem]
  | .jp _ | .jpV0Nnn _ | .seVxKk _ _ | .sneVxKk _ _ | .seVxVy _ _ _ | .sneVxVy _ _ _ | .skp _ | .sknp _
  | .reserved8 _ _ _ | .reservedE _ _ | .reservedF _ _ | .illegal _ => []

/-! ### Which instructions write a part -/

theorem Instr.i_mem_writtenParts {i : Instr} (h : Part.i ∈ i.writtenParts) :
    (∃ nnn, i = .ldINnn nnn) ∨ (∃ x, i = .addIVx x) ∨ ∃ x, i = .ldFVx x := by
  cases i <;> simp [writtenParts] at h ⊢

theorem Instr.stack_mem_writtenParts {i : Instr} (h : Part.stack ∈ i.writtenParts) :
    i = .ret ∨ ∃ nnn, i = .call nnn := by
  cases i <;> simp [writtenParts] at h ⊢

theorem Instr.dt_mem_writtenParts {i : Instr} (h : Part.dt ∈ i.writtenParts) : ∃ x, i = .ldDtVx x := by
  cases i <;> simp [writtenParts] at h ⊢

theorem Instr.fb_mem_writtenParts {i : Instr} (h : Part.fb ∈ i.writtenParts) :
    i = .cls ∨ ∃ x y n, i = .drw x y n := by
  cases i <;> simp [writtenParts] at h ⊢

theorem Instr.mem_mem_writtenParts {i : Instr} (h : Part.mem ∈ i.writtenParts) :
    (∃ x, i = .ldBVx x) ∨ ∃ x, i = .ldMemVx x := by
  cases i <;> simp [writtenParts] at h ⊢

end Sys2Proof

namespace Sys2Proof.Machine

variable {s t u : State}

/-! ### What an instruction can do -/

/-- Where an instruction can leave pc (10_state.md R23): at pc0 if it faults, behind itself or behind the next word, at
the target of a jump or call, at the target of JP V0, or at a stack entry. -/
inductive State.NextPc (s : State) : Word → Prop where
  | stay : s.NextPc s.pc
  | advance : s.NextPc (s.pc + 2)
  | skip : s.NextPc (s.pc + 4)
  | target (nnn : BitVec 12) : s.NextPc (addressOperand nnn)
  | offset (nnn : BitVec 12) : s.NextPc (s.jumpV0Target nnn)
  | popped (j : Fin 16) : s.NextPc s.stk[j.val]

/-- An instruction that writes at most the parts listed, pc apart, takes s to t without a fault. -/
structure Completes (ps : List Part) (s t : State) : Prop where
  v : Part.v ∉ ps → t.v = s.v
  i : Part.i ∉ ps → t.i = s.i
  stack : Part.stack ∉ ps → t.stk = s.stk ∧ t.sp = s.sp
  dt : Part.dt ∉ ps → t.dt = s.dt
  fb : Part.fb ∉ ps → t.fb = s.fb
  mem : Part.mem ∉ ps → t.mem = s.mem
  fault : t.fault = s.fault
  pc : s.NextPc t.pc

/-- The two ways an instruction ends: FAULT latched and nothing else changed (60_exceptions.md R151), or completion. -/
inductive Effect (ps : List Part) (s : State) : State → Prop where
  | faulted (f : FaultLatch) (hf : f.cause ≠ .none) : Effect ps s { s with fault := f }
  | completed {t : State} (h : Completes ps s t) : Effect ps s t

namespace Completes

variable {ps : List Part}

theorem refl (ps : List Part) (s : State) : Completes ps s s :=
  ⟨fun _ => rfl, fun _ => rfl, fun _ => ⟨rfl, rfl⟩, fun _ => rfl, fun _ => rfl, fun _ => rfl, rfl, .stay⟩

theorem setReg (c : Completes ps s t) (x : Reg) (b : Byte) (hp : Part.v ∈ ps) : Completes ps s (t.setReg x b) :=
  { c with v := absurd hp }

theorem setI (c : Completes ps s t) (w : Word) (hp : Part.i ∈ ps) : Completes ps s (t.setI w) :=
  { c with i := absurd hp }

theorem setDt (c : Completes ps s t) (b : Byte) (hp : Part.dt ∈ ps) : Completes ps s (t.setDt b) :=
  { c with dt := absurd hp }

theorem setFb (c : Completes ps s t) (fb : Frame) (hp : Part.fb ∈ ps) : Completes ps s (t.setFb fb) :=
  { c with fb := absurd hp }

theorem writeBytes (c : Completes ps s t) (a : Nat) (bs : List Byte) (hp : Part.mem ∈ ps) :
    Completes ps s (t.writeBytes a bs) :=
  { c with mem := absurd hp }

theorem loadRegs (c : Completes ps s t) (a : Nat) (rs : List Reg) (hp : Part.v ∈ ps) :
    Completes ps s (t.loadRegs a rs) := by
  rw [State.loadRegs_eq]
  exact { c with v := absurd hp }

theorem setStack (c : Completes ps s t) (stk : Vector Word 16) (sp : Fin 17) (hp : Part.stack ∈ ps) :
    Completes ps s { t with stk := stk, sp := sp } :=
  { c with stack := absurd hp }

theorem jump (c : Completes ps s t) {w : Word} (hw : s.NextPc w) : Completes ps s (t.jump w) :=
  { c with pc := hw }

theorem advance (c : Completes ps s t) (hpc : t.pc = s.pc) : Completes ps s t.advance :=
  c.jump (hpc ▸ .advance)

theorem skipIf (ps : List Part) (s : State) (b : Bool) : Completes ps s (s.skipIf b) :=
  (refl ps s).jump (by cases b <;> constructor)

end Completes

/-- Registers that are not written read as before. -/
theorem Completes.reg_of_not_mem {ps : List Part} (c : Completes ps s t) (hp : Part.v ∉ ps) (r : Reg) :
    t.reg r = s.reg r := by
  rw [State.reg, c.v hp, State.reg]

/-- An access to a range either faults or completes (20_memory.md R50). -/
theorem Effect.of_ifInBounds {ps : List Part} {c : Cause} {n : Nat} {op : Word} (h : ifInBounds c n op s t = .next u)
    (hc : c ≠ .none) (ht : Completes ps s t) : Effect ps s u := by
  rcases ifInBounds_cases s c n op t u h with ⟨-, rfl⟩ | ⟨-, -, rfl⟩
  · exact .completed ht
  · exact .faulted _ hc

/-- What any instruction can do: raise a fault, or write its parts and pc (R34, R151). -/
theorem exec_effect {i : Instr} (h : exec i s = .next t) : Effect i.writtenParts s t := by
  cases i with
  | cls => cases h; exact .completed (((Completes.refl _ s).setFb _ (.head _)).advance rfl)
  | ret =>
    rcases Nat.eq_zero_or_pos s.sp.val with hsp | hsp
    · cases (execRet_empty s hsp).symm.trans h
      exact .faulted _ (by simp)
    · cases (execRet_of_pos s hsp).symm.trans h
      have hj : s.sp.val - 1 < 16 := by omega
      exact .completed (((Completes.refl _ s).setStack _ _ (.head _)).jump (.popped ⟨_, hj⟩))
  | call nnn =>
    rcases Nat.lt_or_ge s.sp.val 16 with hsp | hsp
    · cases (execCall_of_lt s nnn hsp).symm.trans h
      exact .completed (((Completes.refl _ s).setStack _ _ (.head _)).jump (.target nnn))
    · cases (execCall_full s nnn (by omega)).symm.trans h
      exact .faulted _ (by simp)
  | jp nnn => cases h; exact .completed ((Completes.refl _ s).jump (.target nnn))
  | jpV0Nnn nnn => cases h; exact .completed ((Completes.refl _ s).jump (.offset nnn))
  | seVxKk | sneVxKk | seVxVy | sneVxVy => cases h; exact .completed (.skipIf _ s _)
  | skp x =>
    rcases Nat.lt_or_ge (s.reg x).toNat 16 with hk | hk
    · cases (execSkp_of_lt s x hk).symm.trans h
      exact .completed (.skipIf _ s _)
    · cases (execSkp_of_gt s x hk).symm.trans h
      exact .faulted _ (by simp)
  | sknp x =>
    rcases Nat.lt_or_ge (s.reg x).toNat 16 with hk | hk
    · cases (execSknp_of_lt s x hk).symm.trans h
      exact .completed (.skipIf _ s _)
    · cases (execSknp_of_gt s x hk).symm.trans h
      exact .faulted _ (by simp)
  | ldVxKk | addVxKk | ldVxVy | orVxVy | andVxVy | xorVxVy | rndVxKk | ldVxDt =>
    cases h; exact .completed (((Completes.refl _ s).setReg _ _ (.head _)).advance rfl)
  | addVxVy | subVxVy | shrVx | subnVxVy | shlVx =>
    cases h
    exact .completed ((((Completes.refl _ s).setReg _ _ (.head _)).setReg _ _ (.head _)).advance rfl)
  | ldINnn | ldFVx => cases h; exact .completed (((Completes.refl _ s).setI _ (.head _)).advance rfl)
  | addIVx =>
    cases h
    exact .completed ((((Completes.refl _ s).setI _ (.tail _ (.head _))).setReg _ _ (.head _)).advance rfl)
  | ldDtVx => cases h; exact .completed (((Completes.refl _ s).setDt _ (.head _)).advance rfl)
  | drw =>
    exact .of_ifInBounds h (by simp)
      ((((Completes.refl _ s).setFb _ (.tail _ (.head _))).setReg _ _ (.head _)).advance rfl)
  | ldBVx | ldMemVx =>
    exact .of_ifInBounds h (by simp) (((Completes.refl _ s).writeBytes _ _ (.head _)).advance rfl)
  | ldVxMem =>
    exact .of_ifInBounds h (by simp)
      (((Completes.refl _ s).loadRegs _ _ (.head _)).advance (by rw [State.loadRegs_eq]))
  | reserved8 | reservedE | reservedF => cases h; exact .completed ((Completes.refl _ s).advance rfl)
  | illegal => cases h; exact .faulted _ (by simp)

/-- A register outside an instruction's destinations keeps its value (10_state.md R21, R34). -/
theorem exec_reg_of_not_writesReg {i : Instr} {r : Reg} (h : exec i s = .next t) (hr : i.writesReg r = false) :
    t.reg r = s.reg r := by
  cases i with
  | ldVxKk | addVxKk | ldVxVy | orVxVy | andVxVy | xorVxVy | rndVxKk | ldVxDt =>
    cases h; exact State.reg_setReg_ne s _ r _ (by simpa [Instr.writesReg] using hr)
  | addVxVy x | subVxVy x | subnVxVy x =>
    obtain ⟨hx, hf⟩ : r ≠ x ∧ r ≠ 15 := by simpa [Instr.writesReg] using hr
    cases h; simp [State.reg_resultThenFlag, hx, hf]
  | shrVx x | shlVx x =>
    obtain ⟨hx, hf⟩ : r ≠ x ∧ r ≠ 15 := by simpa [Instr.writesReg] using hr
    cases h; simp [State.reg_flagThenShift, hx, hf]
  | addIVx =>
    have hf : r ≠ 15 := by simpa [Instr.writesReg] using hr
    cases h; simp [State.reg_setFlag, hf]
  | drw =>
    have hf : r ≠ 15 := by simpa [Instr.writesReg] using hr
    rcases ifInBounds_cases _ _ _ _ _ _ h with ⟨-, rfl⟩ | ⟨-, -, rfl⟩
    · simp [State.drawSprite, State.reg_setFlag, hf]
    · rfl
  | ldVxMem x =>
    have hx : ¬ r ≤ x := by simpa [Instr.writesReg] using hr
    rcases ifInBounds_cases _ _ _ _ _ _ h with ⟨-, rfl⟩ | ⟨-, -, rfl⟩
    · simp [State.reg_loadRegs, hx]
    · rfl
  | _ =>
    cases exec_effect h with
    | faulted f hf => rfl
    | completed c => exact c.reg_of_not_mem (by simp [Instr.writtenParts]) r

/-- The stack entries are written by CALL alone, which stores pc0 + 2 where SP points (R25). -/
theorem exec_stk_cases {i : Instr} (h : exec i s = .next t) :
    t.stk = s.stk ∨ ∃ nnn, i = .call nnn ∧ ∃ hsp : s.sp.val < 16, t.stk = s.stk.set s.sp.val (s.pc + 2) hsp := by
  cases exec_effect h with
  | faulted f hf => exact .inl rfl
  | completed c =>
    by_cases hp : Part.stack ∈ i.writtenParts
    · rcases Instr.stack_mem_writtenParts hp with rfl | ⟨nnn, rfl⟩
      · rcases Nat.eq_zero_or_pos s.sp.val with hsp | hsp
        · cases (execRet_empty s hsp).symm.trans h; exact .inl rfl
        · cases (execRet_of_pos s hsp).symm.trans h; exact .inl rfl
      · rcases Nat.lt_or_ge s.sp.val 16 with hsp | hsp
        · cases (execCall_of_lt s nnn hsp).symm.trans h; exact .inr ⟨nnn, rfl, hsp, rfl⟩
        · cases (execCall_full s nnn (by omega)).symm.trans h; exact .inl rfl
    · exact .inl (c.stack hp).1

/-! ### The invariant, step by step -/

/-- A store within bounds keeps the canonical form, and one out of bounds stores nothing (20_memory.md R50). -/
theorem memory_wf_of_store {n : Nat} {op : Word} {bs : List Byte}
    (h : ifInBounds .dataWriteOutOfBounds n op s (s.writeBytes s.i.toNat bs).advance = .next t)
    (hn : bs.length = n) (h0 : n ≠ 0) (hm : Memory.wf s.font s.mem = true) : Memory.wf s.font t.mem = true := by
  rcases ifInBounds_cases _ _ _ _ _ _ h with ⟨hb, rfl⟩ | ⟨-, -, rfl⟩
  · exact Memory.wf_writeBytes bs hm (hn ▸ hb.resolve_left h0)
  · exact hm

/-- No instruction leaves memory out of canonical form (log 5). -/
theorem exec_memory_wf {i : Instr} (h : exec i s = .next t) (hm : Memory.wf s.font s.mem = true) :
    Memory.wf s.font t.mem = true := by
  cases exec_effect h with
  | faulted f hf => exact hm
  | completed c =>
    by_cases hp : Part.mem ∈ i.writtenParts
    · rcases Instr.mem_mem_writtenParts hp with ⟨x, rfl⟩ | ⟨x, rfl⟩
      · exact memory_wf_of_store h rfl (by omega) hm
      · exact memory_wf_of_store h (s.length_storedRegs x) (by omega) hm
    · rw [c.mem hp]; exact hm

/-- An instruction that was fetched leaves pc at most at 0x10FE, the highest target of JP V0 (R24). -/
theorem State.NextPc.toNat_le {w : Word} (h : s.NextPc w) (hf : s.canFetch = true)
    (hs : ∀ j : Fin 16, s.stk[j.val].toNat ≤ 0x1000) : w.toNat ≤ 0x10FE := by
  have hpc : s.pc.toNat + 1 ≤ 0xFFF := of_decide_eq_true hf
  cases h with
  | stay => omega
  | advance => bv_omega
  | skip => bv_omega
  | target nnn => simp only [addressOperand]; bv_omega
  | offset nnn => simp only [State.jumpV0Target, addressOperand, Byte.toWord]; bv_omega
  | popped j => have := hs j; omega

/-- The clauses of the invariant that every instruction keeps: all but the one on the boot phase. -/
structure State.EngineInv (s : State) : Prop where
  memory_canonical : Memory.wf s.font s.mem = true
  pc_in_range : s.pc.toNat ≤ 0x10FE
  stack_in_range : ∀ j : Fin 16, s.stk[j.val].toNat ≤ 0x1000
  clear_while_running : s.halted = false → s.fault = FaultLatch.clear

theorem State.Inv.engineInv (h : s.Inv) : s.EngineInv :=
  ⟨h.memory_canonical, h.pc_in_range, h.stack_in_range, h.clear_while_running⟩

/-- Once LOAD is over, the invariant says nothing more. -/
theorem State.EngineInv.inv_of_started (h : s.EngineInv) (hb : s.boot = .started) : s.Inv :=
  ⟨h.memory_canonical, h.pc_in_range, h.stack_in_range, h.clear_while_running, fun ha => by simp [hb] at ha⟩

/-- Latching a fault keeps the invariant: nothing else changes, and the engine is halted (R151). -/
theorem State.EngineInv.latch (h : s.EngineInv) {f : FaultLatch} (hf : f.cause ≠ .none) :
    State.EngineInv { s with fault := f } :=
  { h with clear_while_running := fun hh => by simp [State.halted, hf] at hh }

theorem exec_engineInv {i : Instr} (h : exec i s = .next t) (hf : s.canFetch = true) (hi : s.EngineInv) :
    t.EngineInv := by
  have hfont := (exec_sameHostSide h).font
  have hmem := exec_memory_wf h hi.memory_canonical
  have hstk := exec_stk_cases h
  cases exec_effect h with
  | faulted f hc => exact hi.latch hc
  | completed c =>
    refine ⟨hfont ▸ hmem, c.pc.toNat_le hf hi.stack_in_range, fun j => ?_, fun hh => ?_⟩
    · have hpc : s.pc.toNat + 1 ≤ 0xFFF := of_decide_eq_true hf
      rcases hstk with hk | ⟨nnn, rfl, hsp, hk⟩
      · simpa [hk] using hi.stack_in_range j
      · rw [hk, Vector.getElem_set]
        split
        · bv_omega
        · exact hi.stack_in_range j
    · rw [State.halted, c.fault] at hh
      rw [c.fault, hi.clear_while_running hh]

theorem instructionCycle_engineInv (h : instructionCycle s = .next t) (hi : s.EngineInv) : t.EngineInv := by
  cases hf : s.canFetch
  · rw [instructionCycle_of_not_canFetch hf] at h
    cases h
    exact hi.latch (by simp)
  · rw [instructionCycle_of_canFetch hf] at h
    exact exec_engineInv h hf hi

/-- The end of a cycle closes the boot phase and touches nothing the invariant speaks of. -/
theorem State.EngineInv.endCycle (h : s.EngineInv) : s.endCycle.Inv :=
  State.EngineInv.inv_of_started ⟨h.memory_canonical, h.pc_in_range, h.stack_in_range, h.clear_while_running⟩ rfl

theorem afterInstruction_inv (inp : CycleInput) (h : s.EngineInv) : (afterInstruction inp s).Inv := by
  unfold afterInstruction
  split
  · exact h.endCycle
  · exact State.EngineInv.endCycle
      ⟨h.memory_canonical, h.pc_in_range, h.stack_in_range, h.clear_while_running⟩

theorem machineCycle_inv (h : machineCycle s = .next t) (hi : s.EngineInv) : t.Inv := by
  rcases machineCycle_cases h with ⟨-, rfl⟩ | ⟨-, u, hu, rfl⟩
  · exact hi.endCycle
  · exact afterInstruction_inv s.input (instructionCycle_engineInv hu hi)

/-- The machine right after RESET meets the invariant, whatever its FONT and the host's side (R32). -/
theorem State.inv_afterReset (font : Vector Byte Config.fontSize) (host : List HostEvent) (cycle : Nat)
    (flushed : List Frame) : (State.afterReset font host cycle flushed).Inv where
  memory_canonical := rfl
  pc_in_range := by simp [State.afterReset]
  stack_in_range j := by simp [State.afterReset]
  clear_while_running _ := rfl
  as_reset_while_awaiting_load _ := rfl

/-- An image that fits ends inside the address space, so its bytes keep the canonical form (R192). -/
theorem State.EngineInv.loaded (h : s.EngineInv) {image : List Byte} (hl : image.length ≤ 3584) :
    (s.loaded image).Inv :=
  State.EngineInv.inv_of_started
    { h with memory_canonical := Memory.wf_writeBytes image h.memory_canonical (by simp; omega) } rfl

theorem State.EngineInv.romTooLarge (h : s.EngineInv) (image : List Byte) : (s.romTooLarge image).Inv :=
  State.EngineInv.inv_of_started
    { h with clear_while_running := fun hh => by simp [State.halted, State.romTooLarge] at hh } rfl

theorem step_inv (h : step s = .next t) (hi : s.Inv) : t.Inv := by
  rcases step_cases h with ⟨hc, -⟩ | ⟨rest, -, rfl⟩ | ⟨-, rfl⟩ | ⟨image, rest, -, -, -, ⟨hl, rfl⟩ | ⟨-, rfl⟩⟩
  · exact machineCycle_inv hc hi.engineInv
  · exact State.inv_afterReset s.font rest s.cycle s.flushed
  · exact hi
  · exact hi.engineInv.loaded hl
  · exact hi.engineInv.romTooLarge image

/-! ### The reset table -/

/-- The machine right after RESET has the values of the table of R32, whatever its FONT and the host's side. -/
theorem hasResetValues_afterReset (font : Vector Byte Config.fontSize) (host : List HostEvent) (cycle : Nat)
    (flushed : List Frame) : HasResetValues (State.afterReset font host cycle flushed) where
  registers r := State.reg_afterReset font host cycle flushed r
  index := rfl
  pc := rfl
  stack j := by simp [State.afterReset]
  depth := rfl
  timer := rfl
  keys j := by simp [State.afterReset]
  pixels x y := by simp [Frame.pixel, State.afterReset]
  font a := by rw [State.readByte_afterReset, unlisted, dif_pos a.isLt]; rfl
  memory a ha := by rw [State.readByte_afterReset, unlisted, dif_neg (by simpa using ha)]
  fault := ⟨rfl, rfl, rfl, rfl⟩

/-! ### Dead stack entries (R25) -/

/-- The state with other stack entries, SP kept. -/
def State.setStk (s : State) (stk : Vector Word 16) : State := { s with stk := stk }

/-- Two answers that agree but for dead stack entries: next states that differ only there, or the same stop. -/
inductive Alike : Result → Result → Prop where
  | next {s t : State} (h : SameButDeadStack s t) : Alike (.next s) (.next t)
  | fault (r : Fault) : Alike (.fault r) (.fault r)
  | refused (r : Refusal) : Alike (.refused r) (.refused r)

theorem sameButDeadStack_refl (s : State) : SameButDeadStack s s := ⟨rfl, fun _ _ => rfl⟩

/-- The second state is the first with other stack entries, which agree on the live ones. -/
theorem sameButDeadStack_iff : SameButDeadStack s t ↔
    ∃ stk : Vector Word 16, t = s.setStk stk ∧ ∀ j : Fin 16, j.val < s.sp.val → stk[j.val] = s.stk[j.val] :=
  ⟨fun h => ⟨t.stk, h⟩, fun ⟨_, ht, hlive⟩ => ht ▸ ⟨rfl, hlive⟩⟩

theorem alike_ifInBounds {s' t' : State} (h : SameButDeadStack s t) (h' : SameButDeadStack s' t') (c : Cause)
    (n : Nat) (op : Word) : Alike (ifInBounds c n op s s') (ifInBounds c n op t t') := by
  obtain ⟨stk, rfl, hlive⟩ := sameButDeadStack_iff.1 h
  by_cases hb : n = 0 ∨ s.i.toNat + n ≤ 0x1000
  · rw [ifInBounds_of_le s c n op s' hb, ifInBounds_of_le (s.setStk stk) c n op t' hb]
    exact .next h'
  · rw [ifInBounds_of_gt s c n op s' (by omega) (by omega),
      ifInBounds_of_gt (s.setStk stk) c n op t' (by omega) (by simp only [State.setStk]; omega)]
    exact .next ⟨rfl, hlive⟩

theorem sameButDeadStack_advance (h : SameButDeadStack s t) : SameButDeadStack s.advance t.advance := by
  obtain ⟨stk, rfl, hlive⟩ := sameButDeadStack_iff.1 h
  exact ⟨rfl, hlive⟩

/-- Loading registers does not look at the stack. -/
theorem State.loadRegs_setStk (s : State) (stk : Vector Word 16) (a : Nat) (rs : List Reg) :
    (s.setStk stk).loadRegs a rs = (s.loadRegs a rs).setStk stk := by
  unfold State.loadRegs
  exact List.foldl_hom (fun u : State => u.setStk stk) fun _ _ => rfl

theorem sameButDeadStack_loadRegs (h : SameButDeadStack s t) (a : Nat) (rs : List Reg) :
    SameButDeadStack (s.loadRegs a rs) (t.loadRegs a rs) := by
  obtain ⟨stk, rfl, hlive⟩ := sameButDeadStack_iff.1 h
  obtain ⟨hstk, hsp⟩ := ((Completes.refl [.v] s).loadRegs a rs (.head _)).stack (by simp)
  rw [State.loadRegs_setStk, sameButDeadStack_iff]
  exact ⟨stk, rfl, by rwa [hstk, hsp]⟩

/-- CALL writes the same entry in both states and makes it live (R101). -/
theorem alike_execCall (h : SameButDeadStack s t) (nnn : BitVec 12) : Alike (execCall nnn s) (execCall nnn t) := by
  obtain ⟨stk, rfl, hlive⟩ := sameButDeadStack_iff.1 h
  rcases Nat.lt_or_ge s.sp.val 16 with hsp | hsp
  · rw [execCall_of_lt s nnn hsp, execCall_of_lt (s.setStk stk) nnn hsp]
    refine .next (sameButDeadStack_iff.2
      ⟨stk.set s.sp.val (s.pc + 2) hsp, rfl, fun j (hj : j.val < s.sp.val + 1) => ?_⟩)
    rw [State.stk_jump, Vector.getElem_set, Vector.getElem_set]
    split
    · rfl
    · exact hlive j (by omega)
  · rw [execCall_full s nnn (by omega), execCall_full (s.setStk stk) nnn (by simp only [State.setStk]; omega)]
    exact .next ⟨rfl, hlive⟩

/-- RET reads a live entry, the same in both states (R102). -/
theorem alike_execRet (h : SameButDeadStack s t) : Alike (execRet s) (execRet t) := by
  obtain ⟨stk, rfl, hlive⟩ := sameButDeadStack_iff.1 h
  rcases Nat.eq_zero_or_pos s.sp.val with hsp | hsp
  · rw [execRet_empty s hsp, execRet_empty (s.setStk stk) hsp]
    exact .next ⟨rfl, hlive⟩
  · rw [execRet_of_pos s hsp, execRet_of_pos (s.setStk stk) hsp]
    have htop : stk[s.sp.val - 1] = s.stk[s.sp.val - 1] := hlive ⟨s.sp.val - 1, by omega⟩ (Nat.sub_lt hsp one_pos)
    refine .next (sameButDeadStack_iff.2 ⟨stk, ?_, fun j hj => hlive j (Nat.lt_of_lt_of_le hj (Nat.sub_le _ 1))⟩)
    simp only [State.setStk, htop]
    rfl

/-- No instruction looks at a dead entry: RET reads a live one, and the others read none. -/
theorem alike_exec (h : SameButDeadStack s t) (i : Instr) : Alike (exec i s) (exec i t) := by
  obtain ⟨stk, rfl, hlive⟩ := sameButDeadStack_iff.1 h
  cases i with
  | call nnn => exact alike_execCall h nnn
  | ret => exact alike_execRet h
  | skp x =>
    rcases Nat.lt_or_ge (s.reg x).toNat 16 with hk | hk
    · rw [exec, exec, execSkp_of_lt s x hk, execSkp_of_lt (s.setStk stk) x hk]
      exact .next ⟨rfl, hlive⟩
    · rw [exec, exec, execSkp_of_gt s x hk, execSkp_of_gt (s.setStk stk) x hk]
      exact .next ⟨rfl, hlive⟩
  | sknp x =>
    rcases Nat.lt_or_ge (s.reg x).toNat 16 with hk | hk
    · rw [exec, exec, execSknp_of_lt s x hk, execSknp_of_lt (s.setStk stk) x hk]
      exact .next ⟨rfl, hlive⟩
    · rw [exec, exec, execSknp_of_gt s x hk, execSknp_of_gt (s.setStk stk) x hk]
      exact .next ⟨rfl, hlive⟩
  | drw | ldBVx | ldMemVx => exact alike_ifInBounds h ⟨rfl, hlive⟩ _ _ _
  | ldVxMem x =>
    exact alike_ifInBounds h (sameButDeadStack_advance (sameButDeadStack_loadRegs h s.i.toNat (regsUpTo x))) _ _ _
  | _ => exact .next ⟨rfl, hlive⟩

theorem alike_instructionCycle (h : SameButDeadStack s t) : Alike (instructionCycle s) (instructionCycle t) := by
  obtain ⟨stk, rfl, hlive⟩ := sameButDeadStack_iff.1 h
  cases hf : s.canFetch
  · rw [instructionCycle_of_not_canFetch hf, instructionCycle_of_not_canFetch (s := s.setStk stk) hf]
    exact .next ⟨rfl, hlive⟩
  · rw [instructionCycle_of_canFetch hf, instructionCycle_of_canFetch (s := s.setStk stk) hf]
    exact alike_exec h _

theorem sameButDeadStack_afterInstruction (h : SameButDeadStack s t) (inp : CycleInput) :
    SameButDeadStack (afterInstruction inp s) (afterInstruction inp t) := by
  obtain ⟨stk, rfl, hlive⟩ := sameButDeadStack_iff.1 h
  have hh : (s.setStk stk).halted = s.halted := rfl
  unfold afterInstruction
  rw [hh]
  split <;> exact ⟨rfl, hlive⟩

theorem alike_machineCycle (h : SameButDeadStack s t) : Alike (machineCycle s) (machineCycle t) := by
  have hi := alike_instructionCycle h
  obtain ⟨stk, rfl, hlive⟩ := sameButDeadStack_iff.1 h
  have hh : (s.setStk stk).halted = s.halted := rfl
  unfold machineCycle
  rw [hh]
  split
  · exact .next ⟨rfl, hlive⟩
  · generalize instructionCycle s = r, instructionCycle (s.setStk stk) = r' at hi ⊢
    cases hi with
    | next hu => exact .next (sameButDeadStack_afterInstruction hu _)
    | fault r => exact .fault r
    | refused r => exact .refused r

theorem alike_hostLoad (h : SameButDeadStack s t) (image : List Byte) :
    Alike (hostLoad image s) (hostLoad image t) := by
  obtain ⟨stk, rfl, hlive⟩ := sameButDeadStack_iff.1 h
  have hg : ((s.setStk stk).boot = .awaitingLoad ∧ (s.setStk stk).halted = false) =
    (s.boot = .awaitingLoad ∧ s.halted = false) := rfl
  unfold hostLoad
  simp only [hg]
  split
  · split <;> exact .next ⟨rfl, hlive⟩
  · exact .refused _

/-- RESET overwrites every entry, live or not (R191). -/
theorem sameButDeadStack_hostReset (h : SameButDeadStack s t) (rest : List HostEvent) :
    SameButDeadStack (s.hostReset rest) (t.hostReset rest) := by
  obtain ⟨stk, rfl, -⟩ := sameButDeadStack_iff.1 h
  exact sameButDeadStack_refl _

theorem alike_hostQuit (h : SameButDeadStack s t) (rest : List HostEvent) :
    Alike (hostQuit rest s) (hostQuit rest t) := by
  unfold hostQuit
  split
  · exact .next (sameButDeadStack_hostReset h _)
  · exact .next h

theorem alike_step (h : SameButDeadStack s t) : Alike (step s) (step t) := by
  have hhost : t.host = s.host := by rw [h.1]
  unfold step hostStep
  rw [hhost]
  split
  · exact .next (sameButDeadStack_hostReset h _)
  · exact alike_hostLoad h _
  · exact alike_hostQuit h _
  · exact alike_machineCycle h
  · exact alike_machineCycle h

end Sys2Proof.Machine

/-! ### The statements -/

namespace Sys2Proof.Machine

/-- Settles O40: the reset state is a machine right after RESET. -/
theorem resetStateHasTheResetValues : Obligations.ResetStateHasTheResetValues :=
  hasResetValues_afterReset defaultFont [] 0 []

/-- Settles O46: the reset state is a machine right after RESET. -/
theorem invariantHoldsAtReset : Obligations.InvariantHoldsAtReset :=
  State.inv_afterReset defaultFont [] 0 []

/-- Settles O29: an instruction that faults writes FAULT alone, and one that completes at most its parts. -/
theorem onlyTheNamedInstructionsWrite : Obligations.OnlyTheNamedInstructionsWrite := by
  intro i s t h
  obtain ⟨hk, hboot, hfont, hhost, hcycle, hflushed⟩ := exec_sameHostSide h
  have hreg : ∀ r : Reg, t.reg r ≠ s.reg r → i.writesReg r = true := fun r hr =>
    by_contra fun hw => hr (exec_reg_of_not_writesReg h (Bool.eq_false_of_not_eq_true hw))
  have hstk : t.stk ≠ s.stk → ∃ nnn, i = .call nnn := fun hne =>
    (exec_stk_cases h).elim (absurd · hne) fun ⟨nnn, hi, _⟩ => ⟨nnn, hi⟩
  cases exec_effect h with
  | faulted f hf =>
    exact ⟨hreg, absurd rfl, absurd rfl, absurd rfl, absurd rfl, absurd rfl, fun ⟨_, ha⟩ => absurd rfl ha,
      hk, hboot, hfont, hhost, hcycle, hflushed⟩
  | completed c =>
    refine ⟨hreg, fun hi => ?_, fun hsp => ?_, hstk, fun hdt => ?_, fun hfb => ?_, fun ⟨a, ha⟩ => ?_,
      hk, hboot, hfont, hhost, hcycle, hflushed⟩
    · exact Instr.i_mem_writtenParts (by_contra fun hp => hi (c.i hp))
    · exact Instr.stack_mem_writtenParts (by_contra fun hp => hsp (c.stack hp).2)
    · exact Instr.dt_mem_writtenParts (by_contra fun hp => hdt (c.dt hp))
    · exact Instr.fb_mem_writtenParts (by_contra fun hp => hfb (c.fb hp))
    · refine Instr.mem_mem_writtenParts (by_contra fun hp => ha ?_)
      rw [State.readByte, State.readByte, hfont, c.mem hp]

/-- Settles O47, from what one step can do: a machine cycle, RESET, a quit, or a LOAD. -/
theorem everyStepKeepsTheInvariant : Obligations.EveryStepKeepsTheInvariant :=
  fun _ _ hi h => step_inv h hi

/-- Settles O49: the two steps give answers that agree but for dead entries. -/
theorem deadStackEntriesAreNeverObserved : Obligations.DeadStackEntriesAreNeverObserved := by
  intro s t h
  have hstep := alike_step h
  refine ⟨fun s' hs => ?_, fun r hs => ?_⟩
  · rw [hs] at hstep
    generalize step t = r at hstep ⊢
    cases hstep with
    | next h' => exact ⟨_, rfl, h'⟩
  · rw [hs] at hstep
    generalize step t = r' at hstep ⊢
    cases hstep
    rfl

end Sys2Proof.Machine
end

section
/-! PROOF. The family of 20_memory.md: canonical memories are determined by what they read (log 5). The least listed
address is the least one that does not read as its reset contents, so reads fix the head cell; behind it they fix the
tail, and the cells agree one by one. -/

namespace Sys2Proof.Machine

variable {font : Vector Byte Config.fontSize} {lo lo' : Nat} {c c' : Host.Cell} {m m' : Memory}

/-! ### What rising memories read -/

theorem Memory.rising_cons : Memory.rising lo (c :: m) = true ↔ lo ≤ c.1 ∧ Memory.rising (c.1 + 1) m = true := by
  simp [Memory.rising]

@[simp] theorem Memory.read_cons_self : Memory.read font (c :: m) c.1 = c.2 := by
  simp [Memory.read]

theorem Memory.read_cons_of_ne {a : Nat} (h : c.1 ≠ a) : Memory.read font (c :: m) a = Memory.read font m a := by
  simp [Memory.read, h]

/-- Below its first address a rising memory reads as its reset contents. -/
theorem Memory.read_of_lt_of_rising {a : Nat} (h : Memory.rising lo m = true) (ha : a < lo) :
    Memory.read font m a = unlisted font a := by
  induction m generalizing lo with
  | nil => rfl
  | cons c m ih =>
    obtain ⟨hc, hm⟩ := Memory.rising_cons.1 h
    rw [Memory.read_cons_of_ne (by omega), ih hm (by omega)]

/-! ### The head and the tail from the reads -/

/-- A head that is not listed with its reset value sits at or above the head of every rising memory that reads
alike there. -/
theorem Memory.head_le_of_read_eq (hm' : Memory.rising lo' (c' :: m') = true) (hc : c.2 ≠ unlisted font c.1)
    (h : Memory.read font (c :: m) c.1 = Memory.read font (c' :: m') c.1) : c'.1 ≤ c.1 := by
  by_contra hlt
  have hrising : Memory.rising c'.1 (c' :: m') = true :=
    Memory.rising_cons.2 ⟨le_rfl, (Memory.rising_cons.1 hm').2⟩
  rw [Memory.read_cons_self, Memory.read_of_lt_of_rising hrising (by omega)] at h
  exact hc h

/-- Rising memories with one head that read alike have tails that read alike. -/
theorem Memory.read_tail_eq (hm : Memory.rising lo (c :: m) = true) (hm' : Memory.rising lo' (c :: m') = true)
    (h : ∀ a, Memory.read font (c :: m) a = Memory.read font (c :: m') a) (a : Nat) :
    Memory.read font m a = Memory.read font m' a := by
  by_cases ha : c.1 = a
  · have hlt : a < c.1 + 1 := by omega
    rw [Memory.read_of_lt_of_rising (Memory.rising_cons.1 hm).2 hlt,
      Memory.read_of_lt_of_rising (Memory.rising_cons.1 hm').2 hlt]
  · rw [← Memory.read_cons_of_ne ha, h a, Memory.read_cons_of_ne ha]

/-! ### Uniqueness -/

/-- A memory that lists no reset value and reads as the reset contents everywhere lists nothing. -/
theorem Memory.eq_nil_of_read_eq_unlisted (hm : ∀ c ∈ m, c.2 ≠ unlisted font c.1)
    (h : ∀ a, Memory.read font m a = unlisted font a) : m = [] := by
  cases m with
  | nil => rfl
  | cons c m => exact absurd (Memory.read_cons_self.symm.trans (h c.1)) (hm c List.mem_cons_self)

/-- Rising memories that list no reset value and read alike are equal, cell by cell. -/
theorem Memory.eq_of_read_eq (hr : Memory.rising lo m = true) (hr' : Memory.rising lo' m' = true)
    (hcells : ∀ c ∈ m, c.2 ≠ unlisted font c.1) (hcells' : ∀ c ∈ m', c.2 ≠ unlisted font c.1)
    (h : ∀ a, Memory.read font m a = Memory.read font m' a) : m = m' := by
  induction m generalizing m' lo lo' with
  | nil => exact (Memory.eq_nil_of_read_eq_unlisted hcells' fun a => (h a).symm).symm
  | cons c m ih =>
    cases m' with
    | nil => exact Memory.eq_nil_of_read_eq_unlisted hcells h
    | cons c' m' =>
      obtain ⟨hc, hm⟩ := List.forall_mem_cons.1 hcells
      obtain ⟨hc', hm'⟩ := List.forall_mem_cons.1 hcells'
      have haddr : c.1 = c'.1 :=
        le_antisymm (Memory.head_le_of_read_eq hr hc' (h c'.1).symm) (Memory.head_le_of_read_eq hr' hc (h c.1))
      have hbyte : c.2 = c'.2 := by simpa [← haddr, Memory.read] using h c.1
      obtain rfl : c = c' := Prod.ext haddr hbyte
      have htail := Memory.read_tail_eq hr hr' h
      rw [ih (Memory.rising_cons.1 hr).2 (Memory.rising_cons.1 hr').2 hm hm' htail]

/-- Settles O48: the canonical form is rising and lists no reset value. -/
theorem canonicalMemoryIsUnique : Obligations.CanonicalMemoryIsUnique := by
  intro font m m' hm hm' h
  obtain ⟨hr, hcells⟩ := (Memory.wf_iff m).1 hm
  obtain ⟨hr', hcells'⟩ := (Memory.wf_iff m').1 hm'
  exact Memory.eq_of_read_eq hr hr' (fun c hc => (hcells c hc).2) (fun c hc => (hcells' c hc).2) h

end Sys2Proof.Machine
end

section
/-! PROOF. The family of 30_encoding.md. A well-formed instruction and its word determine each other (R64, R65, log 11);
from that a word's row in the opcode map is read off the bits its row's mask keeps; and a step runs what the decoder
reads at pc (R63). -/

namespace Sys2Proof

variable {w : Word} {i : Instr}

/-! ### The decoder undoes the encoder -/

/-- The round trip, put together from its cases (R64, R65). -/
theorem decodeWord_encode (h : i.wellFormed = true) : decodeWord (encode i) = i :=
  match i with
  | .cls => Laws.RoundTrip.cls h
  | .ret => Laws.RoundTrip.ret h
  | .jp nnn => Laws.RoundTrip.jp nnn h
  | .call nnn => Laws.RoundTrip.call nnn h
  | .seVxKk x kk => Laws.RoundTrip.seVxKk x kk h
  | .sneVxKk x kk => Laws.RoundTrip.sneVxKk x kk h
  | .seVxVy x y n => Laws.RoundTrip.seVxVy x y n h
  | .ldVxKk x kk => Laws.RoundTrip.ldVxKk x kk h
  | .addVxKk x kk => Laws.RoundTrip.addVxKk x kk h
  | .ldVxVy x y => Laws.RoundTrip.ldVxVy x y h
  | .orVxVy x y => Laws.RoundTrip.orVxVy x y h
  | .andVxVy x y => Laws.RoundTrip.andVxVy x y h
  | .xorVxVy x y => Laws.RoundTrip.xorVxVy x y h
  | .addVxVy x y => Laws.RoundTrip.addVxVy x y h
  | .subVxVy x y => Laws.RoundTrip.subVxVy x y h
  | .shrVx x y => Laws.RoundTrip.shrVx x y h
  | .subnVxVy x y => Laws.RoundTrip.subnVxVy x y h
  | .shlVx x y => Laws.RoundTrip.shlVx x y h
  | .sneVxVy x y n => Laws.RoundTrip.sneVxVy x y n h
  | .ldINnn nnn => Laws.RoundTrip.ldINnn nnn h
  | .jpV0Nnn nnn => Laws.RoundTrip.jpV0Nnn nnn h
  | .rndVxKk x kk => Laws.RoundTrip.rndVxKk x kk h
  | .drw x y n => Laws.RoundTrip.drw x y n h
  | .skp x => Laws.RoundTrip.skp x h
  | .sknp x => Laws.RoundTrip.sknp x h
  | .ldVxDt x => Laws.RoundTrip.ldVxDt x h
  | .ldDtVx x => Laws.RoundTrip.ldDtVx x h
  | .addIVx x => Laws.RoundTrip.addIVx x h
  | .ldFVx x => Laws.RoundTrip.ldFVx x h
  | .ldBVx x => Laws.RoundTrip.ldBVx x h
  | .ldMemVx x => Laws.RoundTrip.ldMemVx x h
  | .ldVxMem x => Laws.RoundTrip.ldVxMem x h
  | .reserved8 x y n => Laws.RoundTrip.reserved8 x y n h
  | .reservedE x kk => Laws.RoundTrip.reservedE x kk h
  | .reservedF x kk => Laws.RoundTrip.reservedF x kk h
  | .illegal nnn => Laws.RoundTrip.illegal nnn h

/-- The decoder on the two bytes of a word, in memory order (20_memory.md R46). -/
theorem decode_bytes (w : Word) :
    decode [BitVec.ofNat 8 (w.toNat / 256), BitVec.ofNat 8 (w.toNat % 256)] = .ok (decodeWord w, []) := by
  rw [decode, wordOfBytes_bytes]

/-- Settles O1, from the round trip on words. -/
theorem decodeOfEncodeIsTheInstruction : Obligations.DecodeOfEncodeIsTheInstruction := by
  intro i h
  rw [decode_bytes, decodeWord_encode h]
  exact ⟨rfl, rfl⟩

/-! ### The encoder undoes the decoder -/

/-- A well-formed instruction and the word it is encoded as. -/
def Instr.IsOfWord (i : Instr) (w : Word) : Prop := i.wellFormed = true ∧ encode i = w

theorem decode0_isOfWord {nnn : BitVec 12} (h : wordA 0x0 nnn = w) : (decode0 nnn).IsOfWord w := by
  subst h
  unfold decode0
  split_ifs
  case neg => exact ⟨by simp_all [Instr.wellFormed, definedSub0], rfl⟩
  all_goals subst nnn; exact ⟨rfl, rfl⟩

theorem decode8_isOfWord {x y : Reg} {n : BitVec 4} (h : wordRR 0x8 x y n = w) : (decode8 x y n).IsOfWord w := by
  subst h
  unfold decode8
  split_ifs
  case neg => exact ⟨by simp_all [Instr.wellFormed, definedSub8], rfl⟩
  all_goals subst n; exact ⟨rfl, rfl⟩

theorem decodeE_isOfWord {x : Reg} {kk : Byte} (h : wordRI 0xE x kk = w) : (decodeE x kk).IsOfWord w := by
  subst h
  unfold decodeE
  split_ifs
  case neg => exact ⟨by simp_all [Instr.wellFormed, definedSubE], rfl⟩
  all_goals subst kk; exact ⟨rfl, rfl⟩

theorem decodeF_isOfWord {x : Reg} {kk : Byte} (h : wordRI 0xF x kk = w) : (decodeF x kk).IsOfWord w := by
  subst h
  unfold decodeF
  split_ifs
  case neg => exact ⟨by simp_all [Instr.wellFormed, definedSubF], rfl⟩
  all_goals subst kk; exact ⟨rfl, rfl⟩

theorem wordA_of_fieldF {f : BitVec 4} (h : fieldF w = f) : wordA f (fieldNnn w) = w :=
  h ▸ wordA_fields w

theorem wordRI_of_fieldF {f : BitVec 4} (h : fieldF w = f) : wordRI f (fieldX w) (fieldKk w) = w :=
  h ▸ wordRI_fields w

theorem wordRR_of_fieldF {f : BitVec 4} (h : fieldF w = f) : wordRR f (fieldX w) (fieldY w) (fieldN w) = w :=
  h ▸ wordRR_fields w

/-- One test of the decoder's chain. -/
theorem isOfWord_ite {c : Prop} [Decidable c] {j : Instr} (hi : c → i.IsOfWord w) (hj : ¬c → j.IsOfWord w) :
    (if c then i else j).IsOfWord w :=
  iteInduction (motive := fun i : Instr => i.IsOfWord w) hi hj

/-- Every word decodes to a well-formed instruction that is encoded as the word, family by family (R64). -/
theorem decodeWord_isOfWord (w : Word) : (decodeWord w).IsOfWord w := by
  unfold decodeWord
  refine isOfWord_ite (fun h => decode0_isOfWord (wordA_of_fieldF h)) fun h0 => ?_
  refine isOfWord_ite (fun h => ⟨rfl, wordA_of_fieldF h⟩) fun h1 => ?_
  refine isOfWord_ite (fun h => ⟨rfl, wordA_of_fieldF h⟩) fun h2 => ?_
  refine isOfWord_ite (fun h => ⟨rfl, wordRI_of_fieldF h⟩) fun h3 => ?_
  refine isOfWord_ite (fun h => ⟨rfl, wordRI_of_fieldF h⟩) fun h4 => ?_
  refine isOfWord_ite (fun h => ⟨rfl, wordRR_of_fieldF h⟩) fun h5 => ?_
  refine isOfWord_ite (fun h => ⟨rfl, wordRI_of_fieldF h⟩) fun h6 => ?_
  refine isOfWord_ite (fun h => ⟨rfl, wordRI_of_fieldF h⟩) fun h7 => ?_
  refine isOfWord_ite (fun h => decode8_isOfWord (wordRR_of_fieldF h)) fun h8 => ?_
  refine isOfWord_ite (fun h => ⟨rfl, wordRR_of_fieldF h⟩) fun h9 => ?_
  refine isOfWord_ite (fun h => ⟨rfl, wordA_of_fieldF h⟩) fun hA => ?_
  refine isOfWord_ite (fun h => ⟨rfl, wordA_of_fieldF h⟩) fun hB => ?_
  refine isOfWord_ite (fun h => ⟨rfl, wordRI_of_fieldF h⟩) fun hC => ?_
  refine isOfWord_ite (fun h => ⟨rfl, wordRR_of_fieldF h⟩) fun hD => ?_
  refine isOfWord_ite (fun h => decodeE_isOfWord (wordRI_of_fieldF h)) fun hE => ?_
  have hF : fieldF w = 0xF := by bv_omega
  exact decodeF_isOfWord (wordRI_of_fieldF hF)

/-- Settles O2: a word's instruction is encoded as the word, and the decoder undoes the encoder. -/
theorem wordDecodesToWhatEncodesToIt : Obligations.WordDecodesToWhatEncodesToIt := by
  intro w i
  constructor
  · rintro rfl
    exact decodeWord_isOfWord w
  · rintro ⟨hwf, rfl⟩
    exact decodeWord_encode hwf

/-! ### The rows of the opcode map

Each of the masks F000, F00F and F0FF keeps the family and the fields that the decoder examines in it, so two words
that agree under a row's mask are of one row. -/

theorem and_F000 (w : Word) : w &&& 0xF000 = wordA (fieldF w) 0 := by
  have hmask : (0xF000 : Word) = BitVec.allOnes 4 ++ 0#12 := rfl
  conv_lhs => rw [← wordA_fields w]
  rw [hmask, wordA, BitVec.and_append, BitVec.and_allOnes, BitVec.and_zero]
  rfl

theorem and_F0FF (w : Word) : w &&& 0xF0FF = wordRI (fieldF w) 0 (fieldKk w) := by
  have hmask : (0xF0FF : Word) = BitVec.allOnes 4 ++ (0#4 ++ BitVec.allOnes 8) := rfl
  conv_lhs => rw [← wordRI_fields w]
  rw [hmask, wordRI, BitVec.and_append, BitVec.and_append, BitVec.and_allOnes, BitVec.and_zero, BitVec.and_allOnes]
  rfl

theorem and_F00F (w : Word) : w &&& 0xF00F = wordRR (fieldF w) 0 0 (fieldN w) := by
  have hmask : (0xF00F : Word) = BitVec.allOnes 4 ++ (0#4 ++ (0#4 ++ BitVec.allOnes 4)) := rfl
  conv_lhs => rw [← wordRR_fields w]
  rw [hmask, wordRR, BitVec.and_append, BitVec.and_append, BitVec.and_append, BitVec.and_allOnes, BitVec.and_zero,
    BitVec.and_zero, BitVec.and_allOnes]
  rfl

/-- The families whose words are all of one instruction row (R64). -/
def oneRowFamilies : List (BitVec 4) := [0x1, 0x2, 0x3, 0x4, 0x5, 0x6, 0x7, 0x9, 0xA, 0xB, 0xC, 0xD]

/-- In such a family the row is a matter of the family alone. -/
theorem definedRow_of_oneRowFamily (h : fieldF w ∈ oneRowFamilies) :
    (decodeWord w).definedRow = (decodeWord (wordA (fieldF w) 0)).definedRow := by
  generalize hf : fieldF w = f at h
  fin_cases h <;> simp [decodeWord, hf, Instr.definedRow]

theorem definedRow_decode8 (x y : Reg) (n : BitVec 4) :
    (decode8 x y n).definedRow = (decode8 0 0 n).definedRow := by
  unfold decode8
  split_ifs <;> rfl

theorem definedRow_decodeE (x : Reg) (kk : Byte) : (decodeE x kk).definedRow = (decodeE 0 kk).definedRow := by
  unfold decodeE
  split_ifs <;> rfl

theorem definedRow_decodeF (x : Reg) (kk : Byte) : (decodeF x kk).definedRow = (decodeF 0 kk).definedRow := by
  unfold decodeF
  split_ifs <;> rfl

theorem definedRow_of_family8 (h : fieldF w = 0x8) :
    (decodeWord w).definedRow = (decodeWord (wordRR (fieldF w) 0 0 (fieldN w))).definedRow := by
  simpa [decodeWord, h] using definedRow_decode8 (fieldX w) (fieldY w) (fieldN w)

theorem definedRow_of_familyE_or_F (h : fieldF w = 0xE ∨ fieldF w = 0xF) :
    (decodeWord w).definedRow = (decodeWord (wordRI (fieldF w) 0 (fieldKk w))).definedRow := by
  rcases h with h | h
  · simpa [decodeWord, h] using definedRow_decodeE (fieldX w) (fieldKk w)
  · simpa [decodeWord, h] using definedRow_decodeF (fieldX w) (fieldKk w)

/-- The masks of R65: what a row's mask keeps is all that the decoder examines in the row's family. -/
theorem mask_cases : ∀ p ∈ definedPatterns,
    p.mask = 0xFFFF ∨ (p.mask = 0xF000 ∧ fieldF p.bits ∈ oneRowFamilies) ∨
      (p.mask = 0xF00F ∧ fieldF p.bits = 0x8) ∨
      (p.mask = 0xF0FF ∧ (fieldF p.bits = 0xE ∨ fieldF p.bits = 0xF)) := by
  decide

/-- A row's own word, with zeros in the bits the row leaves variable, is of that row (R65). -/
theorem definedRow_bits {k : Nat} {p : Pattern} (hp : definedPatterns[k]? = some p) :
    (decodeWord p.bits).definedRow = some k := by
  obtain ⟨hk, rfl⟩ := List.getElem?_eq_some_iff.1 hp
  have hrows : ∀ k : Fin 32, (decodeWord (definedPatterns[k.val]'k.isLt).bits).definedRow = some k.val := by decide
  exact hrows ⟨k, hk⟩

/-- A word that meets a row's mask and match is of the row of the match, since the two agree in all that the decoder
examines. -/
theorem definedRow_of_holds {p : Pattern} (hp : p ∈ definedPatterns) (h : p.holds w = true) :
    (decodeWord w).definedRow = (decodeWord p.bits).definedRow := by
  have hbits : w &&& p.mask = p.bits := beq_iff_eq.1 h
  rcases mask_cases p hp with hm | ⟨hm, hf⟩ | ⟨hm, hf⟩ | ⟨hm, hf⟩
  · rw [← hbits, hm, show (0xFFFF : Word) = BitVec.allOnes 16 from rfl, BitVec.and_allOnes]
  · rw [hm, and_F000] at hbits
    rw [← hbits, fieldF_wordA] at hf
    rw [← hbits, definedRow_of_oneRowFamily hf]
  · rw [hm, and_F00F] at hbits
    rw [← hbits, fieldF_wordRR] at hf
    rw [← hbits, definedRow_of_family8 hf]
  · rw [hm, and_F0FF] at hbits
    rw [← hbits, fieldF_wordRI] at hf
    rw [← hbits, definedRow_of_familyE_or_F hf]

/-- The word of an instruction meets the mask and match of the instruction's row. -/
theorem holds_encode {k : Nat} {p : Pattern} (hp : definedPatterns[k]? = some p) (h : i.definedRow = some k) :
    p.holds (encode i) = true := by
  cases i
  case reserved8 | reservedE | reservedF | illegal => cases h
  all_goals
    cases h
    cases hp
    simp only [Pattern.holds, encode, and_F000, and_F00F, and_F0FF, fieldF_wordA, fieldF_wordRI, fieldF_wordRR,
      fieldN_wordRR, fieldKk_wordRI]
    rfl

/-- Settles O3: the row's match decides the row of a word that meets it, and every word is the word of its
instruction. -/
theorem rowsMatchExactlyTheirWords : Obligations.RowsMatchExactlyTheirWords := by
  intro w k p hp
  constructor
  · intro h
    rw [definedRow_of_holds (List.mem_of_getElem? hp) h, definedRow_bits hp]
  · intro h
    have hw := holds_encode hp h
    rwa [(decodeWord_isOfWord w).2] at hw

/-- Settles O4, by running the decoder. -/
theorem sampleWordsDecodeAsWrittenInTheMap : Obligations.SampleWordsDecodeAsWrittenInTheMap := by
  unfold Obligations.SampleWordsDecodeAsWrittenInTheMap
  decide

end Sys2Proof

namespace Sys2Proof.Machine

variable {s t : State}

/-! ### Words that are not defined instructions -/

/-- Advancing pc keeps every part of the state. -/
theorem keptBut_advance (ps : List Part) (s : State) : KeptBut ps s s.advance :=
  ⟨fun _ _ => rfl, fun _ => rfl, fun _ => ⟨rfl, rfl⟩, fun _ => rfl, fun _ => rfl, fun _ _ => rfl, fun _ => rfl,
    rfl, rfl, rfl, rfl, rfl, rfl⟩

theorem reserved8_wellFormed (x y : Reg) {n : BitVec 4} (h : n ∈ [0x8, 0x9, 0xA, 0xB, 0xC, 0xD, 0xF]) :
    (Instr.reserved8 x y n).wellFormed = true := by
  fin_cases h <;> rfl

/-- Settles O27: the listed words are the encodings of the reserved rows, whose meaning is to advance pc. -/
theorem reservedWordsOnlyAdvance : Obligations.ReservedWordsOnlyAdvance := by
  intro x y n kk s
  refine ⟨fun h => ?_, fun h => ?_, fun h => ?_, ?_, ?_, ?_⟩
  · exact decodeWord_encode (i := .reserved8 x y n) (reserved8_wellFormed x y h)
  · exact decodeWord_encode (i := .reservedE x kk) (by simpa [Instr.wellFormed, definedSubE] using h)
  · exact decodeWord_encode (i := .reservedF x kk) (by simpa [Instr.wellFormed, definedSubF] using h)
  all_goals exact ⟨s.advance, rfl, rfl, keptBut_advance [] s⟩

/-- Settles O28: the word is the encoding of the illegal row, whose meaning is to raise DecodeError. -/
theorem illegalWordsRaiseDecodeError : Obligations.IllegalWordsRaiseDecodeError := by
  intro nnn s hcls hret
  exact ⟨decodeWord_encode (i := .illegal nnn) (by simp_all [Instr.wellFormed, definedSub0]), rfl⟩

/-! ### Fetch and step -/

theorem canFetch_iff : s.canFetch = true ↔ s.pc.toNat + 1 ≤ 0xFFF := by
  simp [State.canFetch]

/-- A step of a machine that is ready is its instruction cycle and then the other phases (60_exceptions.md R159). -/
theorem step_of_ready (hs : s.ready) (h : instructionCycle s = .next t) :
    step s = .next (afterInstruction s.input t) := by
  obtain ⟨hrun, hhost⟩ := hs
  rw [step_of_cycle hhost, machineCycle, hrun, h]
  rfl

theorem afterInstruction_of_halted (inp : CycleInput) (h : t.halted = true) :
    afterInstruction inp t = t.endCycle := by
  rw [afterInstruction, h, if_pos rfl]

theorem afterInstruction_of_running (inp : CycleInput) (h : t.halted = false) :
    afterInstruction inp t = ((t.tickPhase inp.tick).keyPhase inp.keys).endCycle := by
  rw [afterInstruction, h]
  rfl

/-- The end of a cycle, in terms of the host's side before the instruction (logs 3, 6). -/
theorem endCycle_of_sameHostSide (h : SameHostSide s t) :
    t.endCycle = { t with host := s.host.tail, cycle := s.cycle + 1, boot := .started } := by
  rw [← h.host, ← h.cycle]
  rfl

/-- Settles O32: the fetch runs what the decoder reads at pc, and an instruction leaves the host's side alone. -/
theorem stepRunsTheDecodedInstruction : Obligations.StepRunsTheDecodedInstruction := by
  intro s i hready hpc hdecode
  obtain ⟨t, ht⟩ := exec_next i s
  have hside := exec_sameHostSide ht
  have hcycle : instructionCycle s = .next t := by
    cases hdecode
    rw [instructionCycle_of_canFetch (canFetch_iff.2 hpc), ht]
  have hstep := step_of_ready hready hcycle
  refine ⟨t, ht, fun hhalt => ?_, fun hrun => ?_⟩
  · rw [hstep, afterInstruction_of_halted _ hhalt, endCycle_of_sameHostSide hside]
  · rw [hstep, afterInstruction_of_running _ hrun, ← hside.host, ← hside.cycle, ← hside.flushed]
    simp [State.tickPhase, State.keyPhase, State.endCycle, State.popEvent, and_comm]

/-- Settles O35: the instruction cycle latches the fault, and a halted engine's cycle ends at once. -/
theorem fetchBeyondMemoryFaults : Obligations.FetchBeyondMemoryFaults := by
  intro s hready hpc
  have hfetch : s.canFetch = false := by
    rw [← Bool.not_eq_true, canFetch_iff]
    omega
  rw [step_of_ready hready (instructionCycle_of_not_canFetch hfetch), afterInstruction_of_halted _ rfl]
  rfl

/-! ### A placed word -/

theorem bytesOfTableWord_toNat (w : Word) :
    bytesOfTableWord 16 w.toNat = (BitVec.ofNat 8 (w.toNat / 256), BitVec.ofNat 8 (w.toNat % 256)) := by
  rw [bytesOfTableWord, Nat.mod_eq_of_lt w.isLt]

theorem decodeTableWord_toNat (w : Word) : decodeTableWord 16 w.toNat = some (decodeWord w) := by
  rw [decodeTableWord, bytesOfTableWord_toNat, decode_bytes]
  rfl

/-- Dropping what is no machine cycle leaves a queue whose next event, if there is one, is a machine cycle. -/
theorem dropWhile_not_isCycle (es : List HostEvent) :
    es.dropWhile (fun e => !e.isCycle) = [] ∨
      ∃ inp rest, es.dropWhile (fun e => !e.isCycle) = .cycle inp :: rest := by
  induction es with
  | nil => exact .inl rfl
  | cons e es ih =>
    cases e with
    | cycle inp => exact .inr ⟨inp, es, rfl⟩
    | reset => exact ih
    | load image => exact ih
    | quit => exact ih

theorem halted_readyToFetch (s : State) : s.readyToFetch.halted = false := by
  change ((if s.halted then FaultLatch.clear else s.fault).cause != .none) = false
  split
  · rfl
  · next h => exact Bool.eq_false_of_not_eq_true h

theorem canFetch_readyToFetch (s : State) : s.readyToFetch.canFetch = true := by
  change decide ((if s.canFetch then s.pc else 0x200).toNat + 1 ≤ 0xFFF) = true
  split
  · next h => exact h
  · rfl

/-- The placed bytes, read back at pc, are the word (20_memory.md R44, R46). -/
theorem fetched_withFetchWord (s : State) (w : Word) :
    wordOfBytes ((s.withFetchWord 16 w.toNat).readByte (s.withFetchWord 16 w.toNat).pc.toNat)
      ((s.withFetchWord 16 w.toNat).readByte ((s.withFetchWord 16 w.toNat).pc.toNat + 1)) = w := by
  simp [State.withFetchWord, State.placeWord, bytesOfTableWord_toNat, State.readByte_writeBytes, wordOfBytes_bytes]

/-- Settles O45: placing the word keeps the state ready, and the fetch reads the word back. -/
theorem placedWordIsRunNext : Obligations.PlacedWordIsRunNext := by
  intro s w
  have hready : (s.withFetchWord 16 w.toNat).ready :=
    ⟨halted_readyToFetch s, dropWhile_not_isCycle s.host⟩
  have hfetch : (s.withFetchWord 16 w.toNat).canFetch = true := canFetch_readyToFetch s
  refine ⟨decodeWord w, decodeTableWord_toNat w, rfl, hready, ?_⟩
  rw [instructionCycle_of_canFetch hfetch, fetched_withFetchWord]

end Sys2Proof.Machine
end

section
/-! PROOF. The family of 40_arithmetic.md. Each of its instructions writes one register, or one register and VF in one
of the two orders of R93, and then advances pc. What these three writes leave in the registers, and their frame, is
said once; the statements add what the written bytes are as numbers. -/

namespace Sys2Proof.Machine

/-! ### The frame -/

/-- The frame of R80 to R91: an instruction that writes the listed registers and nothing else, and ends with
`pc <- pc0 + 2`. -/
def WritesRegsAndAdvances (rs : List Reg) (s t : State) : Prop :=
  RegsKeptBut rs s t ∧ t.pc = s.pc + 2 ∧ KeptBut [.v] s t

variable {rs : List Reg} {s t : State}

/-- Advancing pc after a write of registers alone. -/
theorem writesRegsAndAdvances_advance (hregs : RegsKeptBut rs s t) (honly : t = { s with v := t.v }) :
    WritesRegsAndAdvances rs s t.advance := by
  refine ⟨hregs, ?_, absurd (.head _), ?_⟩ <;> rw [honly]
  · rfl
  · exact ⟨fun _ => rfl, fun _ => ⟨rfl, rfl⟩, fun _ => rfl, fun _ => rfl, fun _ _ => rfl, fun _ => rfl,
      rfl, rfl, rfl, rfl, rfl, rfl⟩

/-! ### The three ways to write -/

variable (s) (x : Reg)

/-- One register written, no flag (R80 to R85, R91). -/
theorem setReg_advance_spec (b : Byte) :
    (s.setReg x b).advance.reg x = b ∧ WritesRegsAndAdvances [x] s (s.setReg x b).advance :=
  ⟨s.reg_setReg_self x b,
    writesRegsAndAdvances_advance (fun r hr => s.reg_setReg_ne x r b (List.ne_of_not_mem_cons hr)) rfl⟩

/-- The result and then the flag (R93): with x = 0xF the result is lost. -/
theorem resultThenFlag_advance_spec (b : Byte) (c : Bool) :
    (x ≠ 15 → (s.resultThenFlag x b c).advance.reg x = b) ∧
      (s.resultThenFlag x b c).advance.reg 15 = flagByte c ∧
      WritesRegsAndAdvances [x, 15] s (s.resultThenFlag x b c).advance := by
  refine ⟨fun hx => ?_, ?_, writesRegsAndAdvances_advance (fun r hr => ?_) (s.resultThenFlag_eq x b c)⟩
  · simp [State.reg_resultThenFlag, hx]
  · simp [State.reg_resultThenFlag]
  · obtain ⟨hx, hf⟩ : r ≠ x ∧ r ≠ 15 := by simpa using hr
    simp [State.reg_resultThenFlag, hx, hf]

/-- The flag and then the shift (R93): with x = 0xF it is the flag that is shifted. -/
theorem flagThenShift_advance_spec (c : Bool) (f : Byte → Byte) :
    (x ≠ 15 → (s.flagThenShift x c f).advance.reg x = f (s.reg x) ∧
        (s.flagThenShift x c f).advance.reg 15 = flagByte c) ∧
      (x = 15 → (s.flagThenShift x c f).advance.reg 15 = f (flagByte c)) ∧
      WritesRegsAndAdvances [x, 15] s (s.flagThenShift x c f).advance := by
  refine ⟨fun hx => ⟨?_, ?_⟩, fun hx => ?_,
    writesRegsAndAdvances_advance (fun r hr => ?_) (s.flagThenShift_eq x c f)⟩
  · simp [State.reg_flagThenShift, hx]
  · simp [State.reg_flagThenShift, hx.symm]
  · simp [State.reg_flagThenShift, hx]
  · obtain ⟨hx, hf⟩ : r ≠ x ∧ r ≠ 15 := by simpa using hr
    simp [State.reg_flagThenShift, hx, hf]

/-! ### The flags as numbers (R92) -/

section
variable (a b : Byte)

theorem flagByte_decide (p : Prop) [Decidable p] : flagByte (decide p) = if p then 1 else 0 := by
  simp [flagByte]

theorem toNat_flagByte_lowBit : (flagByte (lowBit a)).toNat = a.toNat % 2 := by
  rw [lowBit, BitVec.getLsbD, Nat.testBit_zero, flagByte_decide]
  split
  · next h => exact h.symm
  · next h => exact (Nat.mod_two_ne_one.1 h).symm

theorem highBit_eq_decide : highBit a = decide (0x80 ≤ a.toNat) :=
  (BitVec.msb_eq_getLsbD_last a).symm.trans (BitVec.msb_eq_decide a)

/-- A difference modulo 256 is `a - b + 256` when it needs a borrow (R87). -/
theorem toNat_sub_byte : (a - b).toNat = (a.toNat + 256 - b.toNat) % 256 := by
  bv_omega

end

/-- The difference of two bytes and then no borrow: SUB and SUBN (R87, R89). -/
theorem subThenNoBorrow_spec (a b : Byte) {t : State}
    (ht : t = (s.resultThenFlag x (a - b) (noBorrow a b)).advance) :
    (x ≠ 15 → (t.reg x).toNat = (a.toNat + 256 - b.toNat) % 256) ∧
      t.reg 15 = (if b.toNat ≤ a.toNat then 1 else 0) ∧ WritesRegsAndAdvances [x, 15] s t := by
  obtain ⟨hresult, hflag, hframe⟩ := resultThenFlag_advance_spec s x (a - b) (noBorrow a b)
  rw [← ht] at hresult hflag hframe
  refine ⟨fun hx => ?_, ?_, hframe⟩
  · rw [hresult hx, toNat_sub_byte]
  · rw [hflag, noBorrow, flagByte_decide]

end Sys2Proof.Machine

/-! ### The statements -/

namespace Sys2Proof.Machine

/-- Settles O5: one register written, with a sum of bytes modulo 256 for ADD. -/
theorem immediateLoadAndAdd : Obligations.ImmediateLoadAndAdd := by
  intro x kk s
  refine ⟨⟨_, rfl, setReg_advance_spec s x kk⟩, ?_⟩
  obtain ⟨hx, hframe⟩ := setReg_advance_spec s x (s.reg x + kk)
  exact ⟨_, rfl, by rw [hx, BitVec.toNat_add], hframe⟩

/-- Settles O6: one register written, with a byte whose bits are those of the operands combined. -/
theorem registerMoveAndLogic : Obligations.RegisterMoveAndLogic := by
  intro x y s
  refine ⟨⟨_, rfl, setReg_advance_spec s x (s.reg y)⟩, ?_, ?_, ?_⟩
  · obtain ⟨hx, hframe⟩ := setReg_advance_spec s x (s.reg x ||| s.reg y)
    exact ⟨_, rfl, fun b => by rw [hx, BitVec.getLsbD_or], hframe⟩
  · obtain ⟨hx, hframe⟩ := setReg_advance_spec s x (s.reg x &&& s.reg y)
    exact ⟨_, rfl, fun b => by rw [hx, BitVec.getLsbD_and], hframe⟩
  · obtain ⟨hx, hframe⟩ := setReg_advance_spec s x (s.reg x ^^^ s.reg y)
    exact ⟨_, rfl, fun b => by rw [hx, BitVec.getLsbD_xor], hframe⟩

/-- Settles O7: the sum is written first, then the carry. -/
theorem addSetsTheCarry : Obligations.AddSetsTheCarry := by
  intro x y s
  obtain ⟨hsum, hflag, hframe⟩ :=
    resultThenFlag_advance_spec s x (s.reg x + s.reg y) (carry (s.reg x) (s.reg y))
  refine ⟨_, rfl, fun hx => ?_, ?_, hframe⟩
  · rw [hsum hx, BitVec.toNat_add]
  · rw [hflag, carry, flagByte_decide]

/-- Settles O8: SUB and SUBN are one subtraction with the operands in both orders. -/
theorem subtractionsSetNoBorrow : Obligations.SubtractionsSetNoBorrow := fun x y s =>
  ⟨⟨_, rfl, subThenNoBorrow_spec s x (s.reg x) (s.reg y) rfl⟩,
    ⟨_, rfl, subThenNoBorrow_spec s x (s.reg y) (s.reg x) rfl⟩⟩

/-- Settles O9: the flag is written first, so with x = 0xF the shift is one of the byte 0 or 1. -/
theorem shiftsSetTheBitShiftedOut : Obligations.ShiftsSetTheBitShiftedOut := by
  intro x y s
  constructor
  · obtain ⟨hne, heq, hframe⟩ := flagThenShift_advance_spec s x (lowBit (s.reg x)) fun b => b >>> 1
    refine ⟨_, rfl, fun hx => ⟨?_, ?_⟩, fun hx => ?_, hframe⟩
    · rw [(hne hx).1, BitVec.toNat_ushiftRight, Nat.shiftRight_one]
    · rw [(hne hx).2, toNat_flagByte_lowBit]
    · rw [heq hx]
      cases lowBit (s.reg x) <;> rfl
  · obtain ⟨hne, heq, hframe⟩ := flagThenShift_advance_spec s x (highBit (s.reg x)) fun b => b <<< 1
    refine ⟨_, rfl, fun hx => ⟨?_, ?_⟩, fun hx => ?_, hframe⟩
    · rw [(hne hx).1, BitVec.toNat_shiftLeft, Nat.shiftLeft_eq, Nat.mul_comm]
    · rw [(hne hx).2, highBit_eq_decide, flagByte_decide]
    · subst hx
      rw [heq rfl, highBit_eq_decide, flagByte_decide]
      split <;> rfl

/-- Settles O10: one register written, with the byte of the machine cycle at the head of the queue if there is one. -/
theorem randomMasksTheDrawnByte : Obligations.RandomMasksTheDrawnByte := by
  intro x kk s
  obtain ⟨hx, hframe⟩ := setReg_advance_spec s x (s.input.rnd &&& kk)
  exact ⟨_, rfl, hx, fun inp rest hhost => by rw [hx, State.input_of_cycle hhost], hframe⟩

end Sys2Proof.Machine
end

section
/-! PROOF. The family of 41_control_flow.md. The frame of an instruction that completes is read off what any instruction
can do (`exec_effect`); what is left to say of each instruction here is where it leaves pc, and for CALL and RET what
they do to the stack. -/

namespace Sys2Proof.Machine

variable {s t u : State}

/-! ### The frame -/

/-- An instruction that leaves FAULT alone writes its own parts and pc, and nothing else (10_state.md R34). -/
theorem exec_keptBut {i : Instr} (h : exec i s = .next t) (hfault : t.fault = s.fault) :
    KeptBut i.writtenParts s t := by
  obtain ⟨hk, hboot, hfont, hhost, hcycle, hflushed⟩ := exec_sameHostSide h
  cases exec_effect h with
  | faulted f hf =>
    exact ⟨fun _ _ => rfl, fun _ => rfl, fun _ => ⟨rfl, rfl⟩, fun _ => rfl, fun _ => rfl, fun _ _ => rfl,
      fun _ => hfault, hk, hboot, hfont, hhost, hcycle, hflushed⟩
  | completed c =>
    refine ⟨c.reg_of_not_mem, c.i, c.stack, c.dt, c.fb, fun hp a => ?_, fun _ => hfault,
      hk, hboot, hfont, hhost, hcycle, hflushed⟩
    rw [State.readByte, State.readByte, hfont, c.mem hp]

/-- What two instructions in turn both leave alone is left alone. -/
theorem KeptBut.trans {ps : List Part} (h : KeptBut ps s t) (h' : KeptBut ps t u) : KeptBut ps s u := by
  obtain ⟨hv, hi, hstack, hdt, hfb, hmem, hfault, hk, hboot, hfont, hhost, hcycle, hflushed⟩ := h
  obtain ⟨hv', hi', hstack', hdt', hfb', hmem', hfault', hk', hboot', hfont', hhost', hcycle', hflushed'⟩ := h'
  exact ⟨fun hp r => (hv' hp r).trans (hv hp r), fun hp => (hi' hp).trans (hi hp),
    fun hp => ⟨(hstack' hp).1.trans (hstack hp).1, (hstack' hp).2.trans (hstack hp).2⟩,
    fun hp => (hdt' hp).trans (hdt hp), fun hp => (hfb' hp).trans (hfb hp),
    fun hp a => (hmem' hp a).trans (hmem hp a), fun hp => (hfault' hp).trans (hfault hp),
    hk'.trans hk, hboot'.trans hboot, hfont'.trans hfont, hhost'.trans hhost, hcycle'.trans hcycle,
    hflushed'.trans hflushed⟩

/-! ### Where pc goes -/

/-- An address operand is its twelve bits as a number (R61, R108). -/
theorem toNat_addressOperand (nnn : BitVec 12) : (addressOperand nnn).toNat = nnn.toNat :=
  BitVec.toNat_setWidth_of_le (by decide)

/-- The sum of a byte and a twelve-bit address fits in sixteen bits (R103). -/
theorem toNat_jumpV0Target (s : State) (nnn : BitVec 12) :
    (s.jumpV0Target nnn).toNat = (s.reg 0).toNat + nnn.toNat := by
  rw [State.jumpV0Target, addressOperand, Byte.toWord]
  bv_omega

section
variable (s : State) (a b : Byte)

/-- A skip on equal bytes (R104, R106). -/
theorem pc_skipIf_beq : (s.skipIf (a == b)).pc = s.pc + (if a.toNat = b.toNat then 4 else 2) := by
  by_cases h : a = b <;> simp [BitVec.toNat_inj, h]

/-- A skip on different bytes (R105, R107). -/
theorem pc_skipIf_bne : (s.skipIf (a != b)).pc = s.pc + (if a.toNat = b.toNat then 2 else 4) := by
  by_cases h : a = b <;> simp [BitVec.toNat_inj, h]

end

/-! ### CALL and RET -/

/-- CALL with room on the stack: the entry at SP is written, the others are kept (R101). -/
theorem exec_call_of_lt (nnn : BitVec 12) (s : State) (hsp : s.sp.val < 16) :
    ∃ t, exec (.call nnn) s = .next t ∧
      (∀ j : Fin 16, t.stk[j.val] = if j.val = s.sp.val then s.pc + 2 else s.stk[j.val]) ∧
      t.sp.val = s.sp.val + 1 ∧ t.pc.toNat = nnn.toNat ∧ KeptBut [.stack] s t := by
  have hexec : exec (.call nnn) s = _ := execCall_of_lt s nnn hsp
  refine ⟨_, hexec, fun j => ?_, rfl, toNat_addressOperand nnn, exec_keptBut hexec rfl⟩
  rw [State.stk_jump, Vector.getElem_set]
  simp only [eq_comm]

/-- RET with a live entry: SP goes down and pc is the entry it then points at, which stays (R102). -/
theorem exec_ret_of_pos (s : State) (hsp : 0 < s.sp.val) :
    ∃ t, exec .ret s = .next t ∧ (∀ j : Fin 16, j.val + 1 = s.sp.val → t.pc = s.stk[j.val]) ∧
      t.sp.val + 1 = s.sp.val ∧ t.stk = s.stk ∧ KeptBut [.stack] s t := by
  have hexec : exec .ret s = _ := execRet_of_pos s hsp
  refine ⟨_, hexec, fun j hj => ?_, Nat.sub_add_cancel hsp, rfl, exec_keptBut hexec rfl⟩
  simp [← hj]

end Sys2Proof.Machine

/-! ### The statements -/

namespace Sys2Proof.Machine

/-- Settles O11: both targets fit in sixteen bits. -/
theorem jumpsWriteTheTarget : Obligations.JumpsWriteTheTarget := fun nnn s =>
  ⟨⟨_, rfl, toNat_addressOperand nnn, exec_keptBut (i := .jp nnn) rfl rfl⟩,
    ⟨_, rfl, toNat_jumpV0Target s nnn, exec_keptBut (i := .jpV0Nnn nnn) rfl rfl⟩⟩

/-- Settles O12: CALL with room on the stack, and with none. -/
theorem callPushesTheReturnAddress : Obligations.CallPushesTheReturnAddress := fun nnn s =>
  ⟨exec_call_of_lt nnn s, execCall_full s nnn⟩

/-- Settles O13: RET with a live entry, and with none. -/
theorem returnPopsIntoPc : Obligations.ReturnPopsIntoPc := fun s =>
  ⟨exec_ret_of_pos s, execRet_empty s⟩

/-- Settles O14: the entry that RET pops is the one that CALL wrote at SP, above every entry that was live. -/
theorem callThenReturnComesBack : Obligations.CallThenReturnComesBack := by
  intro nnn s hsp
  obtain ⟨t, hcall, hpush, hup, -, hkept⟩ := exec_call_of_lt nnn s hsp
  obtain ⟨u, hret, hpop, hdown, hstk, hkept'⟩ := exec_ret_of_pos t (by omega)
  refine ⟨t, u, hcall, hret, ?_, Fin.ext (by omega), fun j hj => ?_, hkept.trans hkept'⟩
  · rw [hpop ⟨s.sp.val, hsp⟩ hup.symm, hpush ⟨s.sp.val, hsp⟩, if_pos rfl]
  · rw [hstk, hpush j, if_neg hj.ne]

/-- Settles O15: each skip compares two bytes, for equality or for a difference. -/
theorem skipsCompareForEquality : Obligations.SkipsCompareForEquality := fun x y kk n s =>
  ⟨⟨_, rfl, pc_skipIf_beq s _ kk, exec_keptBut (i := .seVxKk x kk) rfl rfl⟩,
    ⟨_, rfl, pc_skipIf_bne s _ kk, exec_keptBut (i := .sneVxKk x kk) rfl rfl⟩,
    ⟨_, rfl, pc_skipIf_beq s _ (s.reg y), exec_keptBut (i := .seVxVy x y n) rfl rfl⟩,
    ⟨_, rfl, pc_skipIf_bne s _ (s.reg y), exec_keptBut (i := .sneVxVy x y n) rfl rfl⟩⟩

end Sys2Proof.Machine
end

section
/-! PROOF. The family of 42_memory.md. The frame of each instruction is `exec_keptBut`, and the range test has its two
outcomes in `ifInBounds_of_le` and `ifInBounds_of_gt`; what is said here is the numbers the instructions compute, and
which bytes and registers the two directions of a transfer at I leave. The round trip follows from these two alone. -/

namespace Sys2Proof.Machine

variable (s : State) (x : Reg)

/-! ### The values of I -/

/-- I and a byte are added in sixteen bits (R116). -/
theorem toNat_indexSum : (s.indexSum x).toNat = (s.i.toNat + (s.reg x).toNat) % 65536 := by
  rw [State.indexSum, Byte.toWord, BitVec.toNat_add, BitVec.toNat_setWidth_of_le (by decide)]

/-- Five times a byte fits in sixteen bits (R117). -/
theorem toNat_glyphAddress (b : Byte) : (glyphAddress b).toNat = b.toNat * 5 := by
  rw [glyphAddress, Byte.toWord]
  bv_omega

/-! ### A row of bytes stored (20_memory.md R44) -/

theorem State.readByte_writeBytes_add (a j : Nat) (bs : List Byte) (hj : j < bs.length) :
    (s.writeBytes a bs).readByte (a + j) = bs[j] := by
  simp [State.readByte_writeBytes, hj]

theorem memKeptOutside_writeBytes (a : Nat) (bs : List Byte) :
    MemKeptOutside a bs.length s (s.writeBytes a bs) := by
  intro b hb
  have hout : ¬ (a ≤ b ∧ b - a < bs.length) := by omega
  rw [State.readByte_writeBytes, dif_neg hout]

@[simp] theorem length_decimalDigits (b : Byte) : (decimalDigits b).length = 3 := rfl

/-- Each digit of a byte fits in a byte (R118). -/
theorem toNat_decimalDigits (b : Byte) :
    (decimalDigits b)[0].toNat = b.toNat / 100 ∧ (decimalDigits b)[1].toNat = b.toNat / 10 % 10 ∧
      (decimalDigits b)[2].toNat = b.toNat % 10 := by
  have hb := b.isLt
  exact ⟨Nat.mod_eq_of_lt (by omega), Nat.mod_eq_of_lt (by omega),
    Nat.mod_eq_of_lt (by omega)⟩

/-! ### Registers loaded -/

theorem State.pc_loadRegs (a : Nat) (rs : List Reg) : (s.loadRegs a rs).pc = s.pc := by
  rw [State.loadRegs_eq]

theorem State.fault_loadRegs (a : Nat) (rs : List Reg) : (s.loadRegs a rs).fault = s.fault := by
  rw [State.loadRegs_eq]

/-! ### Transfers within bounds -/

/-- LD B within bounds (R118). -/
theorem exec_ldBVx_of_le (hi : s.i.toNat + 2 ≤ 0xFFF) :
    ∃ t, exec (.ldBVx x) s = .next t ∧
      (t.readByte s.i.toNat).toNat = (s.reg x).toNat / 100 ∧
      (t.readByte (s.i.toNat + 1)).toNat = (s.reg x).toNat / 10 % 10 ∧
      (t.readByte (s.i.toNat + 2)).toNat = (s.reg x).toNat % 10 ∧
      MemKeptOutside s.i.toNat 3 s t ∧ t.pc = s.pc + 2 ∧ KeptBut [.mem] s t := by
  have hexec : exec (.ldBVx x) s = _ := ifInBounds_of_le s _ 3 _ _ (.inr (by omega))
  obtain ⟨hundreds, tens, ones⟩ := toNat_decimalDigits (s.reg x)
  have hread (j : Nat) (hj : j < 3) :=
    congrArg BitVec.toNat (s.readByte_writeBytes_add s.i.toNat j (decimalDigits (s.reg x)) hj)
  exact ⟨_, hexec, (hread 0 (by decide)).trans hundreds, (hread 1 (by decide)).trans tens,
    (hread 2 (by decide)).trans ones, memKeptOutside_writeBytes s s.i.toNat (decimalDigits (s.reg x)), rfl,
    exec_keptBut hexec rfl⟩

/-- LD [I] within bounds (R119). -/
theorem exec_ldMemVx_of_le (hi : s.i.toNat + x.val ≤ 0xFFF) :
    ∃ t, exec (.ldMemVx x) s = .next t ∧
      (∀ r : Reg, r ≤ x → t.readByte (s.i.toNat + r.val) = s.reg r) ∧
      MemKeptOutside s.i.toNat (x.val + 1) s t ∧ t.pc = s.pc + 2 ∧ KeptBut [.mem] s t := by
  have hexec : exec (.ldMemVx x) s = _ := ifInBounds_of_le s _ (x.val + 1) _ _ (.inr (by omega))
  have hlen := s.length_storedRegs x
  refine ⟨_, hexec, fun r hr => ?_, ?_, rfl, exec_keptBut hexec rfl⟩
  · have hr' : r.val < (s.storedRegs x).length := by rw [hlen]; exact Nat.lt_succ_of_le hr
    rw [State.readByte_advance, State.readByte_writeBytes_add s _ _ _ hr', s.getElem_storedRegs x _ hr' r.isLt]
  · exact hlen ▸ memKeptOutside_writeBytes s s.i.toNat (s.storedRegs x)

/-- LD Vx, [I] within bounds (R120). -/
theorem exec_ldVxMem_of_le (hi : s.i.toNat + x.val ≤ 0xFFF) :
    ∃ t, exec (.ldVxMem x) s = .next t ∧
      (∀ r : Reg, t.reg r = if r ≤ x then s.readByte (s.i.toNat + r.val) else s.reg r) ∧
      t.pc = s.pc + 2 ∧ KeptBut [.v] s t := by
  have hexec : exec (.ldVxMem x) s = _ := ifInBounds_of_le s _ (x.val + 1) _ _ (.inr (by omega))
  refine ⟨_, hexec, s.reg_loadRegs s.i.toNat x, ?_, exec_keptBut hexec (s.fault_loadRegs _ _)⟩
  rw [State.pc_advance, State.pc_loadRegs]

end Sys2Proof.Machine

/-! ### The statements -/

namespace Sys2Proof.Machine

/-- Settles O21: what the store leaves in memory is what the load reads, and neither writes I. -/
theorem storeThenLoadReturnsTheRegisters : Obligations.StoreThenLoadReturnsTheRegisters := by
  intro x s v hi
  obtain ⟨t, hstore, hmem, -, -, -, hindex, -⟩ := exec_ldMemVx_of_le s x hi
  have hti : t.i = s.i := hindex (by decide)
  obtain ⟨u, hload, hreg, -, -, hui, -⟩ := exec_ldVxMem_of_le { t with v := v } x (by rw [hti]; exact hi)
  refine ⟨t, u, hstore, hload, fun r hr => ?_, fun r hr => ?_, (hui (by decide)).trans hti⟩
  · rw [hreg, if_pos hr, ← hmem r hr, ← hti]
    rfl
  · rw [hreg, if_neg hr.not_ge]
    rfl

/-- Settles O16: both values fit in sixteen bits. -/
theorem indexLoadAndGlyphAddress : Obligations.IndexLoadAndGlyphAddress := fun nnn x s =>
  ⟨⟨_, rfl, toNat_addressOperand nnn, rfl, exec_keptBut (i := .ldINnn nnn) rfl rfl⟩,
    ⟨_, rfl, toNat_glyphAddress (s.reg x), rfl, exec_keptBut (i := .ldFVx x) rfl rfl⟩⟩

/-- Settles O17: the sum is taken before VF is written. -/
theorem addToIndexSetsTheFlag : Obligations.AddToIndexSetsTheFlag := by
  intro x s
  refine ⟨_, rfl, toNat_indexSum s x, ?_, fun r hr => ?_, rfl, exec_keptBut (i := .addIVx x) rfl rfl⟩
  · exact (State.reg_setReg_self _ 15 _).trans (flagByte_decide _)
  · exact State.reg_setReg_ne _ 15 r _ (List.ne_of_not_mem_cons hr)

/-- Settles O18: LD B within bounds, and beyond them. -/
theorem decimalDigitsAreStored : Obligations.DecimalDigitsAreStored := fun x s =>
  ⟨exec_ldBVx_of_le s x, fun hi => ifInBounds_of_gt s _ 3 _ _ (by decide) (by omega)⟩

/-- Settles O19: LD [I] within bounds, and beyond them. -/
theorem registersAreStored : Obligations.RegistersAreStored := fun x s =>
  ⟨exec_ldMemVx_of_le s x, fun hi => ifInBounds_of_gt s _ (x.val + 1) _ _ (by omega) (by omega)⟩

/-- Settles O20: LD Vx, [I] within bounds, and beyond them. -/
theorem registersAreLoaded : Obligations.RegistersAreLoaded := fun x s =>
  ⟨exec_ldVxMem_of_le s x, fun hi => ifInBounds_of_gt s _ (x.val + 1) _ _ (by omega) (by omega)⟩

end Sys2Proof.Machine
end

section
/-! PROOF. The family of 43_display.md. The sprite bit that `blit` XORs into a pixel is on exactly when the sprite covers
the pixel (`spriteBit_readBytes`), so a draw flips what it covers and the flag tells whether one of these was on. Two
equal draws cover the same pixels, and flipping them twice restores the screen. -/

namespace Sys2Proof.Machine

variable (s : State) (x y : Reg) (n : BitVec 4) {a : Fin 64} {b : Fin 32}

/-! ### The blank screen (R132) -/

theorem Frame.pixel_blank (a : Fin 64) (b : Fin 32) : Frame.blank.pixel a b = false := by
  simp [Frame.pixel, Frame.blank]

/-! ### The pixels a sprite covers (R131) -/

/-- At most one row and one column of a sprite fall on a pixel, since the sprite is smaller than the grid. -/
theorem spriteCovers_iff {px py m : Nat} (hm : m ≤ 32) :
    SpriteCovers s px py m a b ↔ spriteRow py b < m ∧ spriteCol px a < 8 ∧
      (s.readByte (s.i.toNat + spriteRow py b)).getLsbD (7 - spriteCol px a) = true := by
  constructor
  · rintro ⟨j, c, hj, hc, hbit, hx, hy⟩
    have hrow : spriteRow py b = j := (wrapY_eq_iff py j b (by omega)).1 (Fin.ext hy.symm)
    have hcol : spriteCol px a = c := (wrapX_eq_iff px c a hc).1 (Fin.ext hx.symm)
    rw [hrow, hcol]
    exact ⟨hj, hc, hbit⟩
  · rintro ⟨hj, hc, hbit⟩
    exact ⟨_, _, hj, hc, hbit, congrArg Fin.val ((wrapX_eq_iff px _ a hc).2 rfl).symm,
      congrArg Fin.val ((wrapY_eq_iff py _ b (by omega)).2 rfl).symm⟩

/-- The bit that `blit` XORs into a pixel says whether the sprite at I covers the pixel. -/
theorem spriteBit_readBytes {px py m : Nat} (hm : m ≤ 32) :
    spriteBit px py (s.readBytes s.i.toNat m) a b = true ↔ SpriteCovers s px py m a b := by
  rw [spriteCovers_iff s hm, spriteBit]
  by_cases hrow : spriteRow py b < m
  · simp [hrow, rowBit]
  · simp [hrow]

/-! ### One draw (R133) -/

/-- A sprite has no more rows than the screen, so `blit`'s laws apply to it. -/
theorem toNat_rows_le : n.toNat ≤ 32 := by
  have := n.isLt
  omega

theorem State.pixel_drawSprite_of_covers
    (h : SpriteCovers s (s.reg x).toNat (s.reg y).toNat n.toNat a b) :
    (s.drawSprite x y n.toNat).fb.pixel a b = !s.fb.pixel a b := by
  have hbit := (spriteBit_readBytes s (toNat_rows_le n)).2 h
  simp [State.drawSprite, blit_pixel, toNat_rows_le, hbit]

theorem State.pixel_drawSprite_of_not_covers
    (h : ¬ SpriteCovers s (s.reg x).toNat (s.reg y).toNat n.toNat a b) :
    (s.drawSprite x y n.toNat).fb.pixel a b = s.fb.pixel a b := by
  have hbit := mt (spriteBit_readBytes s (toNat_rows_le n)).1 h
  simp [State.drawSprite, blit_pixel, toNat_rows_le, hbit]

/-- The collision bit of a draw, which is the flag it leaves in VF. -/
theorem blit_readBytes_collision :
    (blit s.fb (s.reg x).toNat (s.reg y).toNat (s.readBytes s.i.toNat n.toNat)).2 = true ↔
      ∃ a b, s.fb.pixel a b = true ∧ SpriteCovers s (s.reg x).toNat (s.reg y).toNat n.toNat a b := by
  simp only [blit_collision, State.length_readBytes, toNat_rows_le, spriteBit_readBytes]

theorem flagByte_eq_one_iff (c : Bool) : flagByte c = 1 ↔ c = true := by
  cases c <;> decide

theorem State.flag_drawSprite_eq_one_iff :
    (s.drawSprite x y n.toNat).reg 15 = 1 ↔
      ∃ a b, s.fb.pixel a b = true ∧ SpriteCovers s (s.reg x).toNat (s.reg y).toNat n.toNat a b := by
  rw [State.drawSprite, State.reg_setFlag, if_pos rfl, flagByte_eq_one_iff, blit_readBytes_collision]

theorem State.flag_drawSprite_of_no_collision
    (h : ¬ ∃ a b, s.fb.pixel a b = true ∧ SpriteCovers s (s.reg x).toNat (s.reg y).toNat n.toNat a b) :
    (s.drawSprite x y n.toNat).reg 15 = 0 := by
  rw [← blit_readBytes_collision, Bool.not_eq_true] at h
  rw [State.drawSprite, State.reg_setFlag, if_pos rfl, h, flagByte]
  rfl

variable {n}

/-- DRW within bounds (R133), no row at all included. -/
theorem exec_drw_of_le (h : n = 0 ∨ s.i.toNat + n.toNat - 1 ≤ 0xFFF) :
    exec (.drw x y n) s = .next (s.drawSprite x y n.toNat).advance := by
  refine ifInBounds_of_le s _ n.toNat _ _ ?_
  rcases h with rfl | h
  · exact .inl rfl
  · omega

/-- DRW with a row beyond memory (R133). -/
theorem exec_drw_of_gt (hn : n ≠ 0) (h : 0xFFF < s.i.toNat + n.toNat - 1) :
    exec (.drw x y n) s =
      .next { s with fault := ⟨.dataReadOutOfBounds, s.pc, encode (.drw x y n), lowestBeyond s.i⟩ } := by
  have hpos : 0 < n.toNat := Nat.pos_of_ne_zero fun h0 => hn (BitVec.eq_of_toNat_eq h0)
  exact ifInBounds_of_gt s _ n.toNat _ _ hpos (by omega)

/-! ### Two draws (R135) -/

section
variable {s x y} {t : State} (ht : t = (s.drawSprite x y n.toNat).advance)
  (hx : t.reg x = s.reg x) (hy : t.reg y = s.reg y)
include ht hx hy

/-- A draw that leaves its position registers as they were covers the same pixels when it is repeated. -/
theorem spriteCovers_of_drawn :
    SpriteCovers t (t.reg x).toNat (t.reg y).toNat n.toNat a b ↔
      SpriteCovers s (s.reg x).toNat (s.reg y).toNat n.toNat a b := by
  rw [hx, hy, ht]
  rfl

/-- What the first draw flipped, the second one flips back. -/
theorem fb_drawSprite_of_drawn : (t.drawSprite x y n.toNat).fb = s.fb := by
  refine Frame.ext_pixel fun a b => ?_
  by_cases hc : SpriteCovers s (s.reg x).toNat (s.reg y).toNat n.toNat a b
  · rw [t.pixel_drawSprite_of_covers x y n ((spriteCovers_of_drawn ht hx hy).2 hc), ht, State.fb_advance,
      s.pixel_drawSprite_of_covers x y n hc, Bool.not_not]
  · rw [t.pixel_drawSprite_of_not_covers x y n (mt (spriteCovers_of_drawn ht hx hy).1 hc), ht, State.fb_advance,
      s.pixel_drawSprite_of_not_covers x y n hc]

/-- A covered pixel is on before the second draw exactly when it was off before the first. -/
theorem flag_drawSprite_of_drawn :
    (t.drawSprite x y n.toNat).reg 15 = 1 ↔
      ∃ a b, s.fb.pixel a b = false ∧ SpriteCovers s (s.reg x).toNat (s.reg y).toNat n.toNat a b := by
  rw [t.flag_drawSprite_eq_one_iff x y n]
  refine exists_congr fun a => exists_congr fun b => ?_
  rw [spriteCovers_of_drawn ht hx hy]
  refine and_congr_left fun hc => ?_
  rw [ht, State.fb_advance, s.pixel_drawSprite_of_covers x y n hc, Bool.not_eq_true']

end

end Sys2Proof.Machine

/-! ### The statements -/

namespace Sys2Proof.Machine

/-- Settles O23: DRW within bounds, and beyond them. -/
theorem drawXorsTheSpriteAndFlagsCollision : Obligations.DrawXorsTheSpriteAndFlagsCollision := by
  intro x y n s
  constructor
  · intro h
    have hexec := exec_drw_of_le s x y h
    exact ⟨_, hexec,
      fun _ _ => ⟨s.pixel_drawSprite_of_covers x y n, s.pixel_drawSprite_of_not_covers x y n⟩,
      (s.flag_drawSprite_eq_one_iff x y n).2, s.flag_drawSprite_of_no_collision x y n,
      fun r hr => exec_reg_of_not_writesReg hexec (beq_false_of_ne (List.ne_of_not_mem_cons hr)),
      rfl, exec_keptBut hexec rfl⟩
  · rintro ⟨hn, h⟩
    exact exec_drw_of_gt s x y hn h

/-- Settles O24: advancing pc between the two draws changes nothing a draw reads. -/
theorem doubleDrawRestoresTheScreen : Obligations.DoubleDrawRestoresTheScreen := by
  intro x y n s h
  refine ⟨_, exec_drw_of_le s x y h, s.flag_drawSprite_eq_one_iff x y n, fun hx hy => ?_⟩
  exact ⟨_, exec_drw_of_le (s.drawSprite x y n.toNat).advance x y h,
    fb_drawSprite_of_drawn rfl hx hy, flag_drawSprite_of_drawn rfl hx hy⟩

/-- Settles O22: the frame written is blank. -/
theorem clearScreenTurnsEveryPixelOff : Obligations.ClearScreenTurnsEveryPixelOff := fun s =>
  ⟨_, rfl, Frame.pixel_blank, rfl, exec_keptBut (i := .cls) (s := s) rfl rfl⟩

end Sys2Proof.Machine
end

section
/-! PROOF. The family of 44_timer_input.md. The two timer instructions are one register write and one write of DT. A
key test is a skip on the latch numbered by V[x], or a fault; its frame is `exec_keptBut`. -/

namespace Sys2Proof.Machine

variable (s : State) (x : Reg)

/-! ### Skips on a latch -/

/-- A skip on a latch that is on (R142). -/
theorem pc_skipIf_eq_add (c : Bool) : (s.skipIf c).pc = s.pc + (if c = true then 4 else 2) := by
  cases c <;> rfl

/-- A skip on a latch that is off (R143). -/
theorem pc_skipIf_not (c : Bool) : (s.skipIf !c).pc = s.pc + (if c = true then 2 else 4) := by
  cases c <;> rfl

section
variable {s x} {key : Fin 16} (h : (s.reg x).toNat = key.val)
include h

/-- SKP of the key that V[x] names (R142). -/
theorem exec_skp_of_key : exec (.skp x) s = .next (s.skipIf s.k[key.val]) := by
  have hexec : exec (.skp x) s = _ := execSkp_of_lt s x (h ▸ key.isLt)
  simpa only [h] using hexec

/-- SKNP of the key that V[x] names (R143). -/
theorem exec_sknp_of_key : exec (.sknp x) s = .next (s.skipIf !s.k[key.val]) := by
  have hexec : exec (.sknp x) s = _ := execSknp_of_lt s x (h ▸ key.isLt)
  simpa only [h] using hexec

end

end Sys2Proof.Machine

/-! ### The statements -/

namespace Sys2Proof.Machine

/-- Settles O25: one register written with DT, and DT written with one register. -/
theorem timerIsReadAndWritten : Obligations.TimerIsReadAndWritten := fun x s =>
  ⟨⟨_, rfl, setReg_advance_spec s x s.dt⟩, ⟨_, rfl, rfl, rfl, exec_keptBut (i := .ldDtVx x) rfl rfl⟩⟩

/-- Settles O26: a key number that has a latch, and one above 15, whose info is the byte as a word. -/
theorem keyTestsSkipOnTheLatch : Obligations.KeyTestsSkipOnTheLatch := by
  intro x s
  constructor
  · intro key h
    have hskp := exec_skp_of_key h
    have hsknp := exec_sknp_of_key h
    exact ⟨⟨_, hskp, pc_skipIf_eq_add s _, exec_keptBut hskp rfl⟩,
      ⟨_, hsknp, pc_skipIf_not s _, exec_keptBut hsknp rfl⟩⟩
  · intro h
    rw [BitVec.ofNat_toNat]
    exact ⟨execSkp_of_gt s x h, execSknp_of_gt s x h⟩

end Sys2Proof.Machine
end

section
/-! PROOF. The family of 60_exceptions.md. Two facts about a single instruction carry it: which fault an instruction
raises (`exec_faultsAs`), and that it looks at the host's side for the random byte alone (`exec_setQueue`). The first
says what a faulting cycle leaves; for a cycle whose instruction raises no fault, the state after it is written out
once (`eq_of_step_of_completed`). -/

namespace Sys2Proof.Machine

variable {s t u : State} {i : Instr}

/-! ### The fault an instruction raises (R150, R152, R153) -/

/-- The instruction ends as its fault says: with one, that fault is latched and nothing else changes; with none, it
completes and leaves FAULT alone. -/
def FaultsAs (i : Instr) (s : State) (f : Option (Cause × Word)) : Prop :=
  (∀ c info, f = some (c, info) → exec i s = .next { s with fault := ⟨c, s.pc, encode i, info⟩ }) ∧
    (f = none → ∃ t, exec i s = .next t ∧ t.fault = s.fault)

theorem FaultsAs.never (h : exec i s = .next t) (ht : t.fault = s.fault) : FaultsAs i s none :=
  ⟨nofun, fun _ => ⟨t, h, ht⟩⟩

theorem FaultsAs.always {c : Cause} {info : Word}
    (h : exec i s = .next { s with fault := ⟨c, s.pc, encode i, info⟩ }) : FaultsAs i s (some (c, info)) :=
  ⟨fun _ _ hf => by cases hf; exact h, nofun⟩

/-- An instruction that faults under one condition, from its two outcomes. -/
theorem FaultsAs.ite {p : Prop} [Decidable p] {c : Cause} {info : Word}
    (hp : p → exec i s = .next { s with fault := ⟨c, s.pc, encode i, info⟩ })
    (hn : ¬p → ∃ t, exec i s = .next t ∧ t.fault = s.fault) :
    FaultsAs i s (if p then some (c, info) else none) := by
  split
  · next h => exact .always (hp h)
  · next h =>
    obtain ⟨t, ht, hfault⟩ := hn h
    exact .never ht hfault

/-- An access to n bytes at I faults exactly when the range is not inside memory (20_memory.md R50). -/
theorem FaultsAs.of_ifInBounds {p : Prop} [Decidable p] {c : Cause} {n : Nat}
    (h : exec i s = ifInBounds c n (encode i) s t) (ht : t.fault = s.fault)
    (hp : p ↔ 0 < n ∧ 0x1000 < s.i.toNat + n) :
    FaultsAs i s (if p then some (c, lowestBeyond s.i) else none) := by
  refine .ite (fun hyes => ?_) fun hno => ⟨t, ?_, ht⟩
  · obtain ⟨hpos, hbeyond⟩ := hp.1 hyes
    rw [h, ifInBounds_of_gt s c n _ t hpos hbeyond]
  · rw [hp] at hno
    rw [h, ifInBounds_of_le s c n _ t (by omega)]

/-- Every instruction faults under its condition, and completes otherwise. -/
theorem exec_faultsAs (i : Instr) (s : State) : FaultsAs i s (i.faultOf s) := by
  cases i with
  | illegal nnn => exact .always rfl
  | call nnn =>
    exact .ite (execCall_full s nnn) fun h => ⟨_, execCall_of_lt s nnn (by omega), rfl⟩
  | ret => exact .ite (execRet_empty s) fun h => ⟨_, execRet_of_pos s (by omega), rfl⟩
  | skp x => exact .ite (execSkp_of_gt s x) fun h => ⟨_, execSkp_of_lt s x (by omega), rfl⟩
  | sknp x => exact .ite (execSknp_of_gt s x) fun h => ⟨_, execSknp_of_lt s x (by omega), rfl⟩
  | drw x y n => exact .of_ifInBounds rfl rfl (by omega)
  | ldBVx x => exact .of_ifInBounds rfl rfl (by omega)
  | ldMemVx x => exact .of_ifInBounds rfl rfl (by omega)
  | ldVxMem x => exact .of_ifInBounds rfl (s.fault_loadRegs _ _) (by omega)
  | _ => exact .never rfl rfl

/-- An instruction that halts a running engine has latched its fault and changed nothing else (R151). -/
theorem eq_latched_of_exec_halts (h : exec i s = .next t) (hs : s.halted = false) (ht : t.halted = true) :
    ∃ c info, t = { s with fault := ⟨c, s.pc, encode i, info⟩ } := by
  obtain ⟨hsome, hnone⟩ := exec_faultsAs i s
  cases hf : i.faultOf s with
  | some f =>
    obtain ⟨c, info⟩ := f
    cases (hsome c info hf).symm.trans h
    exact ⟨c, info, rfl⟩
  | none =>
    obtain ⟨u, hu, hfault⟩ := hnone hf
    cases hu.symm.trans h
    rw [State.halted, hfault] at ht
    cases hs.symm.trans ht

/-! ### What an instruction reads of the host's side (R159, R164) -/

/-- The state with another queue of the host's and another count of cycles (logs 2, 3). -/
def State.setQueue (s : State) (host : List HostEvent) (cycle : Nat) : State :=
  { s with host := host, cycle := cycle }

section
variable {host : List HostEvent} {cycle : Nat}

/-- A range test does not look at the queue. -/
theorem ifInBounds_setQueue {c : Cause} {n : Nat} {op : Word} (h : ifInBounds c n op s t = .next u) :
    ifInBounds c n op (s.setQueue host cycle) (t.setQueue host cycle) = .next (u.setQueue host cycle) := by
  rcases ifInBounds_cases s c n op t u h with ⟨hb, rfl⟩ | ⟨hn, hb, rfl⟩
  · exact ifInBounds_of_le (s.setQueue host cycle) c n op _ hb
  · exact ifInBounds_of_gt (s.setQueue host cycle) c n op _ hn hb

/-- Loading registers does not look at the queue. -/
theorem State.loadRegs_setQueue (s : State) (a : Nat) (rs : List Reg) :
    (s.setQueue host cycle).loadRegs a rs = (s.loadRegs a rs).setQueue host cycle := by
  unfold State.loadRegs
  exact List.foldl_hom (fun u : State => u.setQueue host cycle) fun _ _ => rfl

/-- Only RND looks at the host's inputs, and at the random byte alone. -/
theorem exec_setQueue (h : exec i s = .next t)
    (hrnd : ∀ x kk, i = .rndVxKk x kk → (s.setQueue host cycle).input.rnd = s.input.rnd) :
    exec i (s.setQueue host cycle) = .next (t.setQueue host cycle) := by
  cases i with
  | rndVxKk x kk =>
    cases h
    rw [exec, execRndVxKk, hrnd x kk rfl]
    rfl
  | call nnn =>
    rcases Nat.lt_or_ge s.sp.val 16 with hsp | hsp
    · cases (execCall_of_lt s nnn hsp).symm.trans h
      exact execCall_of_lt (s.setQueue host cycle) nnn hsp
    · have hfull : s.sp.val = 16 := by omega
      cases (execCall_full s nnn hfull).symm.trans h
      exact execCall_full (s.setQueue host cycle) nnn hfull
  | ret =>
    rcases Nat.eq_zero_or_pos s.sp.val with hsp | hsp
    · cases (execRet_empty s hsp).symm.trans h
      exact execRet_empty (s.setQueue host cycle) hsp
    · cases (execRet_of_pos s hsp).symm.trans h
      exact execRet_of_pos (s.setQueue host cycle) hsp
  | skp x =>
    rcases Nat.lt_or_ge (s.reg x).toNat 16 with hk | hk
    · cases (execSkp_of_lt s x hk).symm.trans h
      exact execSkp_of_lt (s.setQueue host cycle) x hk
    · cases (execSkp_of_gt s x hk).symm.trans h
      exact execSkp_of_gt (s.setQueue host cycle) x hk
  | sknp x =>
    rcases Nat.lt_or_ge (s.reg x).toNat 16 with hk | hk
    · cases (execSknp_of_lt s x hk).symm.trans h
      exact execSknp_of_lt (s.setQueue host cycle) x hk
    · cases (execSknp_of_gt s x hk).symm.trans h
      exact execSknp_of_gt (s.setQueue host cycle) x hk
  | drw | ldBVx | ldMemVx => exact ifInBounds_setQueue h
  | ldVxMem x =>
    have hload := ifInBounds_setQueue (host := host) (cycle := cycle) h
    rw [exec, execLdVxMem, State.loadRegs_setQueue]
    exact hload
  | _ => cases h; rfl

end

/-! ### Key events (R162) -/

section
variable {key : Fin 16} (k : Vector Bool 16)

/-- Events for other keys leave a latch alone. -/
theorem getElem_applyKeys_of_ne {events : List (Fin 16 × Bool)} (h : ∀ e ∈ events, e.1 ≠ key) :
    (applyKeys k events)[key.val] = k[key.val] := by
  induction events generalizing k with
  | nil => rfl
  | cons e events ih =>
    obtain ⟨hne, hrest⟩ := List.forall_mem_cons.1 h
    calc (applyKeys k (e :: events))[key.val]
      _ = (k.set e.1.val e.2)[key.val] := ih _ hrest
      _ = k[key.val] := Vector.getElem_set_ne _ _ (Fin.val_ne_of_ne hne)

/-- The last event for a key decides its latch. -/
theorem getElem_applyKeys_last (before : List (Fin 16 × Bool)) (b : Bool) {after : List (Fin 16 × Bool)}
    (h : ∀ e ∈ after, e.1 ≠ key) : (applyKeys k (before ++ (key, b) :: after))[key.val] = b := by
  have hsplit : applyKeys k (before ++ (key, b) :: after) =
      applyKeys ((applyKeys k before).set key.val b) after := List.foldl_append
  rw [hsplit, getElem_applyKeys_of_ne _ h, Vector.getElem_set_self]

end

/-! ### The tick (R160) -/

/-- On a tick DT goes down by one, and stays at its floor. -/
theorem toNat_dt_tickPhase (t : State) : (t.tickPhase true).dt.toNat = t.dt.toNat - 1 := by
  by_cases hdt : t.dt = 0
  · simp [hdt]
  · simp only [State.dt_tickPhase, bne_iff_ne.2 hdt, Bool.and_self, if_true]
    bv_omega

/-! ### Machine cycles -/

/-- After an instruction that raised no fault, a step performs the tick and then the key events (R159). -/
theorem eq_of_step_of_completed {inp : CycleInput} {rest : List HostEvent} (hhost : s.host = .cycle inp :: rest)
    (hs : s.halted = false) (hcycle : instructionCycle s = .next t) (ht : t.halted = false)
    (hstep : step s = .next u) : u = ((t.tickPhase inp.tick).keyPhase inp.keys).endCycle := by
  rw [step_of_ready ⟨hs, .inr ⟨inp, rest, hhost⟩⟩ hcycle, afterInstruction_of_running _ ht,
    State.input_of_cycle hhost] at hstep
  exact (Host.Outcome.next.inj hstep).symm

/-- An instruction cycle that halts a running engine has latched a fault with pc0 and the fetched word, 0 where none
was fetched, and changed nothing else (R151, R152). -/
theorem eq_latched_of_instructionCycle_halts (h : instructionCycle s = .next t) (hs : s.halted = false)
    (ht : t.halted = true) :
    ∃ c info, t = { s with fault := ⟨c, s.pc, if s.pc.toNat + 1 ≤ 0xFFF
      then s.readByte s.pc.toNat ++ s.readByte (s.pc.toNat + 1) else 0, info⟩ } := by
  by_cases hf : s.pc.toNat + 1 ≤ 0xFFF
  · rw [instructionCycle_of_canFetch (canFetch_iff.2 hf)] at h
    obtain ⟨c, info, rfl⟩ := eq_latched_of_exec_halts h hs ht
    refine ⟨c, info, ?_⟩
    rw [(decodeWord_isOfWord _).2, if_pos hf]
    rfl
  · rw [instructionCycle_of_not_canFetch (Bool.eq_false_of_not_eq_true (mt canFetch_iff.1 hf))] at h
    cases h
    exact ⟨_, _, by rw [if_neg hf]⟩

/-- The phases after the instruction do not touch FAULT. -/
theorem halted_afterInstruction (inp : CycleInput) (t : State) : (afterInstruction inp t).halted = t.halted := by
  unfold afterInstruction
  split <;> rfl

/-- A halted engine ends its cycle at once (R156). -/
theorem machineCycle_of_halted (h : s.halted = true) : machineCycle s = .next s.endCycle := by
  rw [machineCycle, h, if_pos rfl]

/-- A quit with no RESET behind it leaves the state as it is (R166). -/
theorem hostQuit_of_no_reset {rest : List HostEvent} (h : ∀ rest', rest ≠ .reset :: rest') :
    hostQuit rest s = .next s := by
  unfold hostQuit
  split
  · next rest' => exact absurd rfl (h rest')
  · rfl

end Sys2Proof.Machine

/-! ### The statements -/

namespace Sys2Proof.Machine

/-- Settles O30: the fault of each instruction, from its outcomes. -/
theorem instructionsFaultExactlyUnderTheirCondition : Obligations.InstructionsFaultExactlyUnderTheirCondition :=
  exec_faultsAs

/-- Settles O31: the host's side is read by RND alone. -/
theorem onlyRandomReadsTheHostInput : Obligations.OnlyRandomReadsTheHostInput :=
  fun _ _ _ _ _ h hrnd => exec_setQueue h hrnd

/-- Settles O34: the latches after the cycle are those of before, with the events applied in order. -/
theorem lastKeyEventWins : Obligations.LastKeyEventWins := by
  intro s t u inp rest hhost hs hcycle ht hstep key
  have hk : u.k = applyKeys s.k inp.keys := by
    rw [eq_of_step_of_completed hhost hs hcycle ht hstep, ← (instructionCycle_sameHostSide hcycle).k]
    rfl
  rw [hk]
  refine ⟨fun before b after hkeys hafter => ?_, getElem_applyKeys_of_ne s.k⟩
  simpa only [hkeys] using getElem_applyKeys_last s.k before b hafter

/-- Settles O36: the cycle's instruction latched the fault, and the cycle ended there. -/
theorem faultsArePreciseAndSkipTheOtherPhases : Obligations.FaultsArePreciseAndSkipTheOtherPhases := by
  intro s t hready hstep hhalt
  obtain ⟨u, hu⟩ := instructionCycle_next s
  cases (step_of_ready hready hu).symm.trans hstep
  rw [halted_afterInstruction] at hhalt
  rw [afterInstruction_of_halted _ hhalt]
  obtain ⟨c, info, rfl⟩ := eq_latched_of_instructionCycle_halts hu hready.1 hhalt
  exact ⟨rfl, rfl, rfl⟩

/-- Settles O38: of the events that are no RESET, a cycle and a quit do nothing to a halted engine, and LOAD is
refused. -/
theorem onlyResetLeavesAHalt : Obligations.OnlyResetLeavesAHalt := by
  intro s t hhalt hstep
  rcases step_cases hstep with ⟨hcycle, -⟩ | ⟨rest, hhost, -⟩ | ⟨-, rfl⟩ | ⟨image, rest, -, -, hrun, -⟩
  · cases (machineCycle_of_halted hhalt).symm.trans hcycle
    exact .inr rfl
  · exact .inl ⟨rest, hhost⟩
  · exact .inr rfl
  · cases hrun.symm.trans hhalt

/-- Settles O33: the tick phase follows the instruction, and no later phase touches DT or the framebuffer. -/
theorem tickCountsDownAndFlushes : Obligations.TickCountsDownAndFlushes := by
  intro s t u inp rest hhost hs hcycle ht hstep
  rw [eq_of_step_of_completed hhost hs hcycle ht hstep, ← (instructionCycle_sameHostSide hcycle).flushed]
  refine ⟨fun htick => ?_, fun htick => ?_, rfl⟩
  · rw [htick]
    exact ⟨toNat_dt_tickPhase t, rfl⟩
  · simp [htick]

/-- Settles O37: a cycle of a halted engine ends at once. -/
theorem haltedCycleDoesNothing : Obligations.HaltedCycleDoesNothing := by
  intro s hhalt hhost
  rw [step_of_cycle hhost, machineCycle_of_halted hhalt]
  rfl

/-- Settles O44: with no RESET behind it, a quit stays at the head of the queue. -/
theorem quitChangesNothing : Obligations.QuitChangesNothing := by
  intro s rest hhost hrest
  rw [step, hostStep, hhost]
  exact hostQuit_of_no_reset hrest

end Sys2Proof.Machine
end

section
/-! PROOF. The family of 70_reset_and_hazards.md. The host's events have one equation each, RESET (also behind a quit)
and the outcomes of LOAD. A final state is a fixed point of its own instruction cycle, and the phases after it write
nothing that finality speaks of. -/

namespace Sys2Proof.Machine

variable {s : State} {image : List Byte} {rest : List HostEvent}

/-! ### Final states (R200) -/

/-- A jump to itself is all that the instruction cycle of a final state performs. -/
theorem instructionCycle_of_isFinal (h : s.isFinal) : instructionCycle s = .next s := by
  obtain ⟨-, hfetch, nnn, hdecode, htarget⟩ := h
  calc instructionCycle s
    _ = exec (.jp nnn) s := by rw [instructionCycle, if_pos hfetch, hdecode]
    _ = .next (s.jump (addressOperand nnn)) := rfl
    _ = .next s := by rw [htarget]; rfl

/-- The phases after the instruction touch neither pc nor MEM nor FAULT. -/
theorem isFinal_afterInstruction (inp : CycleInput) (h : s.isFinal) : (afterInstruction inp s).isFinal := by
  rw [afterInstruction_of_running inp h.1]
  exact h

/-! ### RESET (R191, R196) -/

/-- A RESET event, also directly behind a quit, is answered from any state, halted or not. -/
theorem step_of_reset (h : s.host = .reset :: rest ∨ s.host = .quit :: .reset :: rest) :
    step s = .next (s.hostReset rest) := by
  rcases h with h | h
  · rw [step, hostStep, h]
  · rw [step, hostStep, h]
    rfl

/-! ### LOAD (R192, R193) -/

theorem step_of_load (h : s.host = .load image :: rest) : step s = hostLoad image s := by
  rw [step, hostStep, h]

theorem hostLoad_of_le (hboot : s.boot = .awaitingLoad) (hrun : s.halted = false) (hlen : image.length ≤ 3584) :
    hostLoad image s = .next (s.loaded image) := by
  rw [hostLoad, if_pos ⟨hboot, hrun⟩, if_pos hlen]

theorem hostLoad_of_gt (hboot : s.boot = .awaitingLoad) (hrun : s.halted = false) (hlen : 3584 < image.length) :
    hostLoad image s = .next (s.romTooLarge image) := by
  rw [hostLoad, if_pos ⟨hboot, hrun⟩, if_neg (Nat.not_le.2 hlen)]

theorem hostLoad_of_started (image : List Byte) (h : s.boot = .started) :
    hostLoad image s = .refused .loadOutsideBoot := by
  have hclosed : ¬ (s.boot = .awaitingLoad ∧ s.halted = false) := by simp [h]
  rw [hostLoad, if_neg hclosed]

/-- A LOAD that fits copies its image, uses up its event, and closes the boot phase. -/
theorem State.loaded_eq (h : s.host = .load image :: rest) :
    s.loaded image = { s.writeBytes 0x200 image with boot := .started, host := rest } := by
  simp [State.loaded, State.popEvent, State.writeBytes, h]

/-- A LOAD that does not fit latches RomTooLarge, uses up its event, and closes the boot phase. -/
theorem State.romTooLarge_eq (h : s.host = .load image :: rest) :
    s.romTooLarge image = { s with
      fault := ⟨.romTooLarge, 0x200, 0, BitVec.ofNat 16 (min image.length 0xFFFF)⟩
      boot := .started, host := rest } := by
  simp [State.romTooLarge, State.popEvent, h]

end Sys2Proof.Machine

/-! ### The statements -/

namespace Sys2Proof.Machine

/-- Settles O39: the instruction cycle gives the same state back, and the phases after it write DT, K and the host's
side alone. -/
theorem finalStateStaysFinal : Obligations.FinalStateStaysFinal := by
  intro s hready hfinal
  refine ⟨_, step_of_ready hready (instructionCycle_of_isFinal hfinal), isFinal_afterInstruction _ hfinal, ?_⟩
  rw [afterInstruction_of_running _ hfinal.1]
  exact ⟨rfl, rfl, rfl, rfl, rfl, rfl, rfl⟩

/-- Settles O41: RESET builds the state of the reset table, whatever the state before. -/
theorem resetEventRestoresEveryValue : Obligations.ResetEventRestoresEveryValue := fun s rest hhost =>
  ⟨s.hostReset rest, step_of_reset hhost, hasResetValues_afterReset s.font rest s.cycle s.flushed, rfl, rfl, rfl⟩

/-- Settles O42: LOAD writes the image's bytes in a row from 0x200, and is refused once the boot phase is over. -/
theorem loadCopiesTheImageOnce : Obligations.LoadCopiesTheImageOnce := by
  intro s image rest hhost
  rw [step_of_load hhost]
  refine ⟨fun hboot hrun hlen => ?_, hostLoad_of_started image⟩
  rw [hostLoad_of_le hboot hrun hlen, State.loaded_eq hhost]
  exact ⟨_, rfl, fun j hj => s.readByte_writeBytes_add 0x200 j image hj, memKeptOutside_writeBytes s 0x200 image, rfl⟩

/-- Settles O43: the outcome of a LOAD that does not fit. -/
theorem romTooLargeCopiesNothing : Obligations.RomTooLargeCopiesNothing := by
  intro s image rest hhost hboot hrun hlen
  rw [step_of_load hhost, hostLoad_of_gt hboot hrun hlen, State.romTooLarge_eq hhost]

end Sys2Proof.Machine
end
